-- ==== Sys2Proof/Word.lean ====
section
/-! DEFINITION. The one word type of the machine: every register, memory cell, opcode and operand is a byte (R5, R7). -/

namespace Sys2Proof

/-- An unsigned 8-bit value; bit 0 is the least significant bit (R7). Arithmetic on it is modulo 256 (R22, R122). -/
abbrev Byte := BitVec 8

end Sys2Proof
end

