-- ==== Sys2Proof/Config.lean ====
section
/-! DEFINITION. The two parameters of the core (R5). They are configuration, not state (R10). The spec leaves no value
free, so there is no free value here. -/

namespace Sys2Proof

/-- `FLAG_MODE` (R5, R24, R25, R123): whether ADD and SUB write `overflow` and `zero`. -/
inductive FlagMode where
  | original   -- no instruction writes `overflow` or `zero` (the default)
  | arith      -- ADD and SUB write both (R123)
  deriving DecidableEq, Repr

/-- The parameters a model takes as an argument (R5). -/
structure Config where
  memCapacity : Nat        -- `MEM_CAPACITY`, the number of cells of the attached memory
  flagMode    : FlagMode   -- `FLAG_MODE`
  deriving DecidableEq, Repr

/-- The defaults of R5: 8192 cells, `FLAG_MODE = original`. -/
def config : Config := { memCapacity := 8192, flagMode := .original }

end Sys2Proof
end

