-- ==== Sys2Proof/Syntax.lean ====
section
/-! DEFINITION. The eight instructions (R1, R63), one constructor per row of the opcode table. -/

namespace Sys2Proof

/-- The six two-byte opcodes, the kinds an in-flight record can have (R28, R62). -/
inductive Kind where
  | ld | st | add | sub | jmp | jze
  deriving DecidableEq, Repr

/-- An instruction. The operand of the two-byte forms is an absolute address, all 256 values legal (R64). -/
inductive Instr where
  | nop
  | ld (k : Byte)
  | st (k : Byte)
  | add (k : Byte)
  | halt
  | jmp (k : Byte)
  | jze (k : Byte)
  | sub (k : Byte)
  deriving DecidableEq, Repr

/-- The two-byte instruction of a kind and an operand byte (R62). -/
def Kind.toInstr (kind : Kind) (k : Byte) : Instr :=
  match kind with
  | .ld => .ld k
  | .st => .st k
  | .add => .add k
  | .sub => .sub k
  | .jmp => .jmp k
  | .jze => .jze k

/-- Length in bytes (R60). -/
def Instr.length : Instr → Nat
  | .nop => 1
  | .halt => 1
  | .ld _ => 2
  | .st _ => 2
  | .add _ => 2
  | .jmp _ => 2
  | .jze _ => 2
  | .sub _ => 2

/-- The mnemonic, in capitals (R63, R69). -/
def Instr.mnemonic : Instr → String
  | .nop => "NOP"
  | .ld _ => "LD"
  | .st _ => "ST"
  | .add _ => "ADD"
  | .halt => "HALT"
  | .jmp _ => "JMP"
  | .jze _ => "JZE"
  | .sub _ => "SUB"

/-- The operand byte, where the format has one (R61, R62). -/
def Instr.operand? : Instr → Option Byte
  | .nop => none
  | .halt => none
  | .ld k => some k
  | .st k => some k
  | .add k => some k
  | .jmp k => some k
  | .jze k => some k
  | .sub k => some k

/-- The listing form of R69: the mnemonic alone, or the mnemonic, a space and the address in decimal. It has no effect
on the machine. -/
def Instr.listing (i : Instr) : String :=
  match i.operand? with
  | none => i.mnemonic
  | some k => i.mnemonic ++ " " ++ toString k.toNat

end Sys2Proof
end

