-- ==== Sys2Proof/WellFormed.lean ====
section
/-! DEFINITION. Which instructions and which configurations are well-formed. -/

namespace Sys2Proof

/-- Every instruction of the syntax is well-formed: all 256 operand values are legal for all six two-byte instructions,
and neither format has a reserved field (R64, R66). -/
def Instr.wellFormed : Instr → Bool
  | .nop => true
  | .ld _ => true
  | .st _ => true
  | .add _ => true
  | .halt => true
  | .jmp _ => true
  | .jze _ => true
  | .sub _ => true

/-- `MEM_CAPACITY >= 256` (R5, R43): a smaller memory is outside the spec, and a model must refuse it. -/
def Config.wellFormed (cfg : Config) : Bool := decide (256 ≤ cfg.memCapacity)

end Sys2Proof
end

