-- ==== Sys2Proof/Decode.lean ====
section
/-! DEFINITION. The decoder, total on any bytes, and after it the encoder (R60 to R68). Both are written from the opcode map
of R63: the opcode byte is compared whole, and a byte of the range 0x08 to 0xFF is illegal. -/

namespace Sys2Proof

/-- What an opcode byte selects: format `OP` (R61) or format `OPA` with its kind (R62). -/
inductive Opcode where
  | nop
  | halt
  | twoByte (kind : Kind)
  deriving DecidableEq, Repr

/-- Why bytes are no instruction. Only `illegalOpcode` can arise at a fetch, which always has two bytes. -/
inductive DecodeError where
  | illegalOpcode (b : Byte)    -- a byte 0x08 to 0xFF (R65)
  | missingOpcode               -- no byte at all
  | missingOperand (b : Byte)   -- a two-byte opcode with no byte after it
  deriving DecidableEq, Repr

/-- The opcode map of R63 (the work of `fetch_unit`). -/
def opcodeOfByte (b : Byte) : Option Opcode :=
  match b.toNat with
  | 0 => some .nop
  | 1 => some (.twoByte .ld)
  | 2 => some (.twoByte .st)
  | 3 => some (.twoByte .add)
  | 4 => some .halt
  | 5 => some (.twoByte .jmp)
  | 6 => some (.twoByte .jze)
  | 7 => some (.twoByte .sub)
  | _ => none

/-- What the decoder makes of an opcode and the bytes after it: a two-byte opcode takes the next byte as its operand,
a one-byte opcode takes none (R60 to R62, R83). -/
def decodeRest (b : Byte) (op : Opcode) (rest : List Byte) : Except DecodeError (Instr × List Byte) :=
  match op, rest with
  | .nop, _ => .ok (.nop, rest)
  | .halt, _ => .ok (.halt, rest)
  | .twoByte _, [] => .error (.missingOperand b)
  | .twoByte kind, k :: rest => .ok (kind.toInstr k, rest)

/-- The instruction at the head of some bytes, with the bytes after it, or the reason there is none. -/
def decode (bytes : List Byte) : Except DecodeError (Instr × List Byte) :=
  match bytes with
  | [] => .error .missingOpcode
  | b :: rest =>
    match opcodeOfByte b with
    | none => .error (.illegalOpcode b)
    | some op => decodeRest b op rest

/-- The bytes of an instruction in memory order (R61 to R63). -/
def encode : Instr → List Byte
  | .nop => [0x00#8]
  | .ld k => [0x01#8, k]
  | .st k => [0x02#8, k]
  | .add k => [0x03#8, k]
  | .halt => [0x04#8]
  | .jmp k => [0x05#8, k]
  | .jze k => [0x06#8, k]
  | .sub k => [0x07#8, k]

/-- A row's bits as the two bytes the hardware stores: the table numbers bit 0 as the least significant bit of the first
byte, and the bits from `nbits` up are 0. -/
def tableBytes (nbits w : Nat) : Byte × Byte :=
  (BitVec.ofNat 8 (w % 2 ^ nbits), BitVec.ofNat 8 (w % 2 ^ nbits / 256))

/-- What the decoder reads from an instruction given in the opcode table's bit numbering. -/
def decodeTableWord (nbits w : Nat) : Option Instr :=
  match decode [(tableBytes nbits w).1, (tableBytes nbits w).2] with
  | .ok (i, _) => some i
  | .error _ => none

end Sys2Proof
end

