-- ==== Sys2Proof/Machine/State.lean ====
section
/-! DEFINITION. The state of the machine: exactly the seven items of R20, as plain data; the reasons a step can stop; and
the state right after construction and `Reset`. -/

namespace Sys2Proof.Machine

/-- Reasons the machine stops with a fault. There is none: the spec's one fault, the machine fault, is the sticky flag
`error` and the tick that raises it has a next state (R150, R153, R155); no access of the core can fail (R41, R43); a
rejected host access is an answer to the host and leaves the machine as it was (R53). The type has no constructor, so no
step can answer with a fault. -/
inductive Fault where
  deriving DecidableEq, Repr

/-- Reasons the model gives a situation no meaning. No instruction raises one. -/
inductive Refusal where
  /-- Raised by an arm of `exec` for an instruction that has no meaning yet. No arm raises it. Safe: the model stops. -/
  | notModelled (mnemonic : String)
  /-- Raised by `handle` on a `Tick` before the first `Reset` (R33, R184). Safe: the model stops. -/
  | tickBeforeReset
  /-- Raised by `handle` on an `Observe` before the first `Reset`, when the registers hold no value (R33, U5). Safe: the
  model stops. -/
  | observeBeforeReset
  /-- Raised by `stepIn` and `handle` for a configuration with `MEM_CAPACITY < 256` (R43). Safe: the model stops. -/
  | capacityTooSmall
  deriving DecidableEq, Repr

/-- The number of the step the next tick performs (R28): 0, the operand step, or 1, the final step (R9). -/
inductive StepIndex where
  | step0   -- the operand step (R85)
  | step1   -- the final step (R86)
  deriving DecidableEq, Repr

/-- The record of the instruction in flight (R28). -/
structure Inflight where
  kind    : Kind
  step    : StepIndex
  operand : Byte
  deriving DecidableEq, Repr

/-- Memory: the cells that do not read as an unlisted address does, addresses strictly rising (`Memory.wf`). -/
abbrev Memory := List Host.Cell

/-- What an unlisted address reads as: every cell is 0 at construction (R31, R54). -/
def Memory.unlisted : Byte := 0#8

/-- The memory right after construction (R54). -/
def Memory.fresh : Memory := []

/-- The seven items of R20. -/
structure State where
  pc       : Byte               -- the program counter (R22)
  acc      : Byte               -- the accumulator (R21)
  overflow : Bool               -- R24
  zero     : Bool               -- R25
  error    : Bool               -- the sticky fault flag (R26)
  inflight : Option Inflight    -- the hidden in-flight record (R28)
  mem      : Memory             -- the attached memory (R31)
  deriving DecidableEq, Repr

/-- The machine right after construction and the first `Reset` (R32, R54): every value is the spec's. -/
def State.reset : State :=
  { pc := 0#8, acc := 0#8, overflow := false, zero := false, error := false, inflight := none, mem := Memory.fresh }

end Sys2Proof.Machine
end

