-- ==== Sys2Proof/Machine/Ops.lean ====
section
/-! DEFINITION. The named operations over memory and registers: the canonical memory, the two primitives of the
`memory_interface` (R41), the register writes, raising the machine fault (R153), and `Reset` (R180), the only way out of
the Halted state (R156). -/

namespace Sys2Proof.Machine

/-- The byte at an address: the listed one, else what an unlisted address reads as. -/
def Memory.read : Memory → Nat → Byte
  | [], _ => Memory.unlisted
  | (b, v) :: m, a => if a = b then v else Memory.read m a

/-- Writing one byte, keeping the canonical form: addresses rise, and writing the unlisted value removes the entry. -/
def Memory.write : Memory → Nat → Byte → Memory
  | [], a, v => if v = Memory.unlisted then [] else [(a, v)]
  | (b, u) :: m, a, v =>
    if a < b then (if v = Memory.unlisted then (b, u) :: m else (a, v) :: (b, u) :: m)
    else if a = b then (if v = Memory.unlisted then m else (a, v) :: m)
    else (b, u) :: Memory.write m a v

/-- The canonical form from address `lo` up: addresses at least `lo` and strictly rising, no entry unlisted-valued. -/
def Memory.wfFrom : Nat → Memory → Bool
  | _, [] => true
  | lo, (a, v) :: m => decide (lo ≤ a) && decide (v ≠ Memory.unlisted) && Memory.wfFrom (a + 1) m

/-- The canonical form. -/
def Memory.wf (m : Memory) : Bool := Memory.wfFrom 0 m

/-- Every listed cell is one of the `cap` cells the memory has (R31). -/
def Memory.within (cap : Nat) (m : Memory) : Bool := m.all fun c => decide (c.1 < cap)

/-- `MemRead(a, 1)`, `a` an 8-bit address (R41). -/
def memRead (a : Byte) (s : State) : Byte := s.mem.read a.toNat

/-- `MemWrite(a, 1, v)` (R41). -/
def memWrite (a v : Byte) (s : State) : State := { s with mem := s.mem.write a.toNat v }

/-- `pc <- v` (R8). -/
def setPc (v : Byte) (s : State) : State := { s with pc := v }

/-- `pc <- (pc + n) mod 256` (R22). -/
def advancePc (n : Byte) (s : State) : State := setPc (s.pc + n) s

/-- `acc <- v` (R8). -/
def setAcc (v : Byte) (s : State) : State := { s with acc := v }

/-- `inflight <- r` (R8). -/
def setInflight (r : Option Inflight) (s : State) : State := { s with inflight := r }

/-- `overflow <- o`, `zero <- z` (R123). -/
def setFlags (o z : Bool) (s : State) : State := { s with overflow := o, zero := z }

/-- The spec's labels for the two causes of the machine fault (R151). The hardware records neither (R152). -/
inductive FaultCause where
  | illegalOpcode
  | halt
  deriving DecidableEq, Repr

/-- `raise MachineFault(cause)`: `error <- true`, nothing else; nothing is saved and control goes nowhere (R152, R153). -/
def raiseMachineFault (_cause : FaultCause) (s : State) : State := { s with error := true }

/-- The `Reset` event (R180): the core at its reset values, memory unchanged. It is the only exit from the Halted state
and restores nothing of the state before the fault (R156). -/
def resetEvent (s : State) : State :=
  { pc := 0#8, acc := 0#8, overflow := false, zero := false, error := false, inflight := none, mem := s.mem }

/-- What one step of an in-flight instruction reports (R84), with the state after the step's own writes. -/
inductive StepReport where
  | completed (s : State)
  | pending (s : State)
  deriving DecidableEq, Repr

/-- `Completed` removes the record, `Pending` keeps it with its step raised by one (R84). -/
def settle (r : Inflight) : StepReport → State
  | .completed s => setInflight none s
  | .pending s => setInflight (some { r with step := .step1 }) s

/-- One tick of the two-byte instruction `kind k`. With nothing in flight it is the instruction's fetch tick, which
captures the operand in a new record and changes nothing else (R82, R83); otherwise it performs the step the record
names (R84). -/
def engineTick (kind : Kind) (k : Byte) (operandStep finalStep : State → StepReport) (s : State) : State :=
  match s.inflight with
  | none => setInflight (some { kind := kind, step := .step0, operand := k }) s
  | some r =>
    match r.step with
    | .step0 => settle r (operandStep s)
    | .step1 => settle r (finalStep s)

/-- The operand step of LD, ST, ADD, SUB and JMP: nothing but the step index changes (R85). -/
def idleOperandStep (s : State) : StepReport := .pending s

end Sys2Proof.Machine
end

