-- ==== Sys2Proof/Machine/Flags.lean ====
section
/-! DEFINITION. The flag updates of ADD and SUB (R123), from the value `a` of the accumulator before the instruction and
the data byte `m`. In `FLAG_MODE = original` they do nothing (R24, R25). -/

namespace Sys2Proof.Machine

/-- `FlagsAdd(a, m)` (R123): `overflow` is the unsigned carry out of bit 7. -/
def flagsAdd (mode : FlagMode) (a m : Byte) (s : State) : State :=
  match mode with
  | .original => s
  | .arith => setFlags (Nat.blt 255 (a.toNat + m.toNat)) ((a.toNat + m.toNat) % 256 == 0) s

/-- `FlagsSub(a, m)` (R123): `overflow` is the unsigned borrow, `zero` says that `a = m`. -/
def flagsSub (mode : FlagMode) (a m : Byte) (s : State) : State :=
  match mode with
  | .original => s
  | .arith => setFlags (Nat.blt a.toNat m.toNat) (a == m) s

/-- The condition of JZE: all eight bits of the accumulator are 0; the `zero` flag plays no part (R131). -/
def accIsZero (s : State) : Bool := s.acc == 0#8

end Sys2Proof.Machine
end

