-- ==== Sys2Proof/Machine/Operands.lean ====
section
/-! DEFINITION. The one operand form of the machine: the operand byte is an absolute address, used whole and unchanged
(R64). -/

namespace Sys2Proof.Machine

/-- The address of the operand's memory cell: `zext(k) = k` (R64). -/
def operandAddress (k : Byte) : Nat := k.toNat

/-- The data byte an operand names, for LD, ADD and SUB (R42, R64). -/
def operandRead (k : Byte) (s : State) : Byte := s.mem.read (operandAddress k)

/-- Storing to the operand's cell, for ST (R64). -/
def operandWrite (k v : Byte) (s : State) : State := { s with mem := s.mem.write (operandAddress k) v }

end Sys2Proof.Machine
end

