-- ==== Sys2Proof/Machine/Arithmetic.lean ====
section
/-! DEFINITION. ADD and SUB (R120 to R123), for either `FLAG_MODE`; `execAdd` and `execSub` take the mode of `config`. -/

namespace Sys2Proof.Machine

/-- The final step of ADD (R120, R122). The flags are computed from the accumulator before the write (R90). -/
def addFinal (mode : FlagMode) (k : Byte) (s : State) : StepReport :=
  .completed (advancePc 2#8 (setAcc (s.acc + operandRead k s) (flagsAdd mode s.acc (operandRead k s) s)))

/-- One tick of ADD in a given `FLAG_MODE` (R120). -/
def addTick (mode : FlagMode) (k : Byte) (s : State) : Host.Outcome State Fault Refusal :=
  .next (engineTick .add k idleOperandStep (addFinal mode k) s)

/-- ADD (R120). -/
def execAdd (k : Byte) (s : State) : Host.Outcome State Fault Refusal := addTick config.flagMode k s

/-- The final step of SUB: the accumulator is the minuend (R121, R122). -/
def subFinal (mode : FlagMode) (k : Byte) (s : State) : StepReport :=
  .completed (advancePc 2#8 (setAcc (s.acc - operandRead k s) (flagsSub mode s.acc (operandRead k s) s)))

/-- One tick of SUB in a given `FLAG_MODE` (R121). -/
def subTick (mode : FlagMode) (k : Byte) (s : State) : Host.Outcome State Fault Refusal :=
  .next (engineTick .sub k idleOperandStep (subFinal mode k) s)

/-- SUB (R121). -/
def execSub (k : Byte) (s : State) : Host.Outcome State Fault Refusal := subTick config.flagMode k s

end Sys2Proof.Machine
end

