-- ==== Sys2Proof/Machine/Halt.lean ====
section
/-! DEFINITION. HALT (R140). -/

namespace Sys2Proof.Machine

/-- HALT: executed whole in its fetch tick, raises the machine fault and changes nothing else (R140). -/
def execHalt (s : State) : Host.Outcome State Fault Refusal := .next (raiseMachineFault .halt s)

end Sys2Proof.Machine
end

