-- ==== Sys2Proof/Machine/Jumps.lean ====
section
/-! DEFINITION. JMP and JZE (R130, R131). -/

namespace Sys2Proof.Machine

/-- The final step of JMP: `pc <- k` (R130). -/
def jmpFinal (k : Byte) (s : State) : StepReport := .completed (setPc k s)

/-- JMP (R130). -/
def execJmp (k : Byte) (s : State) : Host.Outcome State Fault Refusal :=
  .next (engineTick .jmp k idleOperandStep (jmpFinal k) s)

/-- The operand step of JZE: not taken completes here with `pc <- pc + 2`, taken goes on (R85, R131). -/
def jzeOperandStep (s : State) : StepReport :=
  if accIsZero s then .pending s else .completed (advancePc 2#8 s)

/-- The final step of JZE, reached only when the operand step found `acc = 0`: `pc <- k` (R86, R131). -/
def jzeFinal (k : Byte) (s : State) : StepReport := .completed (setPc k s)

/-- JZE (R131). -/
def execJze (k : Byte) (s : State) : Host.Outcome State Fault Refusal :=
  .next (engineTick .jze k jzeOperandStep (jzeFinal k) s)

end Sys2Proof.Machine
end

