-- ==== Sys2Proof/Machine/LoadStore.lean ====
section
/-! DEFINITION. LD and ST (R110, R111). -/

namespace Sys2Proof.Machine

/-- The final step of LD: `acc <- MemRead(k, 1)`, `pc <- pc + 2` (R110). -/
def ldFinal (k : Byte) (s : State) : StepReport := .completed (advancePc 2#8 (setAcc (operandRead k s) s))

/-- LD (R110). -/
def execLd (k : Byte) (s : State) : Host.Outcome State Fault Refusal :=
  .next (engineTick .ld k idleOperandStep (ldFinal k) s)

/-- The final step of ST: `MemWrite(k, 1, acc)`, `pc <- pc + 2` (R111). -/
def stFinal (k : Byte) (s : State) : StepReport := .completed (advancePc 2#8 (operandWrite k s.acc s))

/-- ST (R111). -/
def execSt (k : Byte) (s : State) : Host.Outcome State Fault Refusal :=
  .next (engineTick .st k idleOperandStep (stFinal k) s)

end Sys2Proof.Machine
end

