-- ==== Sys2Proof/Machine/Nop.lean ====
section
/-! DEFINITION. NOP (R100). A meaning `exec<Name>` is one tick of its instruction. -/

namespace Sys2Proof.Machine

/-- NOP: executed whole in its fetch tick, `pc <- (pc + 1) mod 256` (R100). -/
def execNop (s : State) : Host.Outcome State Fault Refusal := .next (advancePc 1#8 s)

end Sys2Proof.Machine
end

