-- ==== Sys2Proof/Machine/Dispatch.lean ====
section
/-! DEFINITION. One tick of a given instruction, one arm per constructor. -/

namespace Sys2Proof.Machine

def exec (i : Instr) (s : State) : Host.Outcome State Fault Refusal :=
  match i with
  | .nop => Sys2Proof.Machine.execNop s
  | .ld k => Sys2Proof.Machine.execLd k s
  | .st k => Sys2Proof.Machine.execSt k s
  | .add k => Sys2Proof.Machine.execAdd k s
  | .halt => Sys2Proof.Machine.execHalt s
  | .jmp k => Sys2Proof.Machine.execJmp k s
  | .jze k => Sys2Proof.Machine.execJze k s
  | .sub k => Sys2Proof.Machine.execSub k s

end Sys2Proof.Machine
end

