-- ==== Sys2Proof/Machine/Tick.lean ====
section
/-! DEFINITION. The frame of one `Tick` (R81), over any dispatcher `run` of an instruction's tick. -/

namespace Sys2Proof.Machine

/-- The bytes a fetch tick decodes: the opcode byte at `pc` and the byte at `(pc + 1) mod 256` (R42, R82). The decoder
drops the second one for a one-byte opcode, for which the hardware does not read it (D13; reads have no effect, R46). -/
def fetchBytes (s : State) : List Byte := [memRead s.pc s, memRead (s.pc + 1#8) s]

/-- The instruction of an in-flight record (R28). -/
def Inflight.toInstr (r : Inflight) : Instr := r.kind.toInstr r.operand

/-- A fetch tick (R82): the decoded instruction's own tick, or the machine fault on an illegal byte (R65). -/
def fetchTick (run : Instr → State → Host.Outcome State Fault Refusal) (s : State) : Host.Outcome State Fault Refusal :=
  match decode (fetchBytes s) with
  | .ok (i, _) => run i s
  | .error _ => .next (raiseMachineFault .illegalOpcode s)

/-- A `Tick`: nothing when `error`, else a fetch tick when nothing is in flight, else a step of the instruction in
flight (R81). -/
def tickWith (run : Instr → State → Host.Outcome State Fault Refusal) (s : State) : Host.Outcome State Fault Refusal :=
  if s.error then .next s
  else
    match s.inflight with
    | none => fetchTick run s
    | some r => run r.toInstr s

/-- The two bytes `b` placed at `pc` and `(pc + 1) mod 256` of a machine that is ready to fetch (R81, R82). -/
def placeAtFetch (b : Byte × Byte) (s : State) : State :=
  memWrite (s.pc + 1#8) b.2 (memWrite s.pc b.1 { s with error := false, inflight := none })

end Sys2Proof.Machine
end

