-- ==== Sys2Proof/Machine/Step.lean ====
section
/-! DEFINITION. One step of the machine is one `Tick` (R80, R90). -/

namespace Sys2Proof.Machine

/-- One `Tick` of the machine at the spec's default parameters (R90). -/
def step (s : State) : Host.Outcome State Fault Refusal := tickWith exec s

/-- `s` with an instruction, in the opcode table's bit numbering, where the next tick fetches it. -/
def State.withFetchWord (s : State) (nbits w : Nat) : State := placeAtFetch (tableBytes nbits w) s

end Sys2Proof.Machine
end

