-- ==== Sys2Proof/Machine/Access.lean ====
section
/-! DEFINITION. The memory accesses a tick makes (R48). -/

namespace Sys2Proof.Machine

/-- One single-byte access of the core (R41, R44). -/
inductive Access where
  | read (a : Byte)
  | write (a : Byte)
  deriving DecidableEq, Repr

/-- The accesses of a fetch tick, in order: the opcode byte, and for a two-byte opcode the operand byte (R48, R50, D13). -/
def fetchAccesses (s : State) : List Access :=
  match opcodeOfByte (memRead s.pc s) with
  | some (.twoByte _) => [.read s.pc, .read (s.pc + 1#8)]
  | some .nop => [.read s.pc]
  | some .halt => [.read s.pc]
  | none => [.read s.pc]

/-- The accesses of a final step (R48). -/
def finalAccesses (kind : Kind) (k : Byte) : List Access :=
  match kind with
  | .ld => [.read k]
  | .add => [.read k]
  | .sub => [.read k]
  | .st => [.write k]
  | .jmp => []
  | .jze => []

/-- The accesses the next tick makes (R48): none while `error`, none in an operand step. -/
def tickAccesses (s : State) : List Access :=
  if s.error then []
  else
    match s.inflight with
    | none => fetchAccesses s
    | some r =>
      match r.step with
      | .step0 => []
      | .step1 => finalAccesses r.kind r.operand

end Sys2Proof.Machine
end

