-- ==== Sys2Proof/Machine/Configured.lean ====
section
/-! DEFINITION. The machine for any value of the two parameters (R5). `exec` and `step` are its case at `config`. -/

namespace Sys2Proof.Machine

/-- One tick of an instruction in a given configuration: only ADD and SUB depend on it (R123). -/
def execIn (cfg : Config) (i : Instr) (s : State) : Host.Outcome State Fault Refusal :=
  match i with
  | .nop => execNop s
  | .ld k => execLd k s
  | .st k => execSt k s
  | .add k => addTick cfg.flagMode k s
  | .halt => execHalt s
  | .jmp k => execJmp k s
  | .jze k => execJze k s
  | .sub k => subTick cfg.flagMode k s

/-- One `Tick` in a given configuration; a configuration with `MEM_CAPACITY < 256` is refused (R43). -/
def stepIn (cfg : Config) (s : State) : Host.Outcome State Fault Refusal :=
  if cfg.wellFormed then tickWith (execIn cfg) s else .refused .capacityTooSmall

end Sys2Proof.Machine
end

