-- ==== Sys2Proof/Machine/Events.lean ====
section
/-! DEFINITION. The core with its host: the five events of R6, each atomic, in one total order (R49). -/

namespace Sys2Proof.Machine

/-- The events (R6). The address of a host access is a host-side integer, not limited to 8 bits (R53). -/
inductive Event where
  | reset
  | tick
  | hostWrite (a : Int) (v : Byte)
  | hostRead (a : Int)
  | observe
  deriving DecidableEq, Repr

/-- What `Observe` shows: not the in-flight record (R34, R163). -/
structure Observation where
  pc       : Byte
  acc      : Byte
  overflow : Bool
  zero     : Bool
  error    : Bool
  deriving DecidableEq, Repr

/-- The host's view of the registers (R34). -/
def observe (s : State) : Observation :=
  { pc := s.pc, acc := s.acc, overflow := s.overflow, zero := s.zero, error := s.error }

/-- What an event answers to the host. -/
inductive Reply where
  | done                            -- the event happened; nothing is returned (R80, R160)
  | byte (v : Byte)                 -- the byte of a `HostRead`
  | registers (o : Observation)     -- the answer to `Observe`
  | rejected                        -- an access outside `[0, MEM_CAPACITY)`; nothing changed (R53)
  deriving DecidableEq, Repr

/-- The whole system. Before the first `Reset` only the memory holds values (R33). -/
inductive System where
  | constructed (mem : Memory)
  | live (s : State)
  deriving DecidableEq, Repr

/-- The system right after construction (R54, R183). -/
def System.powerOn : System := .constructed Memory.fresh

/-- The memory, which the host reaches in every state (R53). -/
def System.mem : System → Memory
  | .constructed m => m
  | .live s => s.mem

/-- The system with another memory and the same core. -/
def System.withMem (m : Memory) : System → System
  | .constructed _ => .constructed m
  | .live s => .live { s with mem := m }

/-- Is `a` the number of a cell (R53)? -/
def inCapacity (cfg : Config) (a : Int) : Bool := decide (0 ≤ a) && decide (a < cfg.memCapacity)

/-- `HostWrite(a, v)` (R53). -/
def hostWrite (cfg : Config) (a : Int) (v : Byte) (sys : System) : System × Reply :=
  if inCapacity cfg a then (sys.withMem (sys.mem.write a.toNat v), .done) else (sys, .rejected)

/-- `HostRead(a)` (R53). -/
def hostRead (cfg : Config) (a : Int) (sys : System) : System × Reply :=
  if inCapacity cfg a then (sys, .byte (sys.mem.read a.toNat)) else (sys, .rejected)

/-- The first `Reset` gives the core its reset values (R33, R180); a later one is `resetEvent`. -/
def resetSystem : System → System
  | .constructed m => .live (resetEvent { State.reset with mem := m })
  | .live s => .live (resetEvent s)

/-- A `Tick` of the system: no meaning before the first `Reset` (R33). -/
def tickSystem (cfg : Config) : System → Host.Outcome (System × Reply) Fault Refusal
  | .constructed _ => .refused .tickBeforeReset
  | .live s =>
    match stepIn cfg s with
    | .next t => .next (.live t, .done)
    | .fault f => .fault f
    | .refused r => .refused r

/-- `Observe`: no meaning before the first `Reset`, when the registers hold no value (R33, U5); no effect (R163). -/
def observeSystem : System → Host.Outcome (System × Reply) Fault Refusal
  | .constructed _ => .refused .observeBeforeReset
  | .live s => .next (.live s, .registers (observe s))

/-- One event (R6). A configuration with `MEM_CAPACITY < 256` is refused (R43). -/
def handle (cfg : Config) (e : Event) (sys : System) : Host.Outcome (System × Reply) Fault Refusal :=
  if cfg.wellFormed then
    match e with
    | .reset => .next (resetSystem sys, .done)
    | .tick => tickSystem cfg sys
    | .hostWrite a v => .next (hostWrite cfg a v sys)
    | .hostRead a => .next (hostRead cfg a sys)
    | .observe => observeSystem sys
  else .refused .capacityTooSmall

/-- A sequence of events, stopping at the first refusal; the system after it and the answers in order. -/
def handleAll (cfg : Config) : List Event → System → Host.Outcome (System × List Reply) Fault Refusal
  | [], sys => .next (sys, [])
  | e :: es, sys =>
    match handle cfg e sys with
    | .next (sys', r) =>
      match handleAll cfg es sys' with
      | .next (sys'', rs) => .next (sys'', r :: rs)
      | .fault f => .fault f
      | .refused q => .refused q
    | .fault f => .fault f
    | .refused q => .refused q

end Sys2Proof.Machine
end

