-- ==== Sys2Proof/Safety.lean ====
section
/-! DEFINITION. The terms claims are stated in: the logical states (R29), the invariant (R28, R30), the end of a run (R191),
the whole tick as the one function of R90, and an instruction's ticks and whole effect as a program sees them (R87). -/

namespace Sys2Proof.Safety

open Sys2Proof Sys2Proof.Machine

/-- The three logical states of the CPU (R29). -/
inductive LogicalState where
  | halted | idle | running
  deriving DecidableEq, Repr

/-- The logical state is a function of the state, not extra state (R29). -/
def logicalState (s : State) : LogicalState :=
  if s.error then .halted else if s.inflight = none then .idle else .running

/-- A run has ended (R191). -/
abbrev Ended (s : State) : Prop := s.error = true

/-- How a host classifies an ended run by reading `mem[pc]` (R165); no cause if the cell was overwritten since. -/
def faultCause (s : State) : Option FaultCause :=
  if s.error then
    if memRead s.pc s = 0x04#8 then some .halt
    else if 8 ≤ (memRead s.pc s).toNat then some .illegalOpcode else none
  else none

/-- The values of `inflight` that the rules reach (R28): a JZE waits for its final step only with `acc = 0`. -/
def inflightReached (s : State) : Prop :=
  ∀ k, s.inflight = some { kind := .jze, step := .step1, operand := k } → s.acc = 0#8

/-- What holds in every state reached from a `Reset` (R24, R25, R28 to R31): memory in canonical form within the
capacity, no record in the Halted state, a reachable record, and in `FLAG_MODE = original` both arithmetic flags clear. -/
structure Inv (cfg : Config) (s : State) : Prop where
  mem_wf          : s.mem.wf = true
  mem_within      : s.mem.within cfg.memCapacity = true
  halted_empty    : s.error = true → s.inflight = none
  reached         : inflightReached s
  flags_original  : cfg.flagMode = .original → s.overflow = false ∧ s.zero = false

/-- The invariant of a system: before the first `Reset` it speaks of the memory alone (R33). -/
def SystemInv (cfg : Config) : System → Prop
  | .constructed m => m.wf = true ∧ m.within cfg.memCapacity = true
  | .live s => Inv cfg s

/-- `n mod 256` as a byte. -/
def mod256 (n : Nat) : Byte := BitVec.ofNat 8 (n % 256)

/-- `kind(op)` of R90. -/
def ninetyKind (op : Nat) : Option Kind :=
  if op = 0x01 then some .ld
  else if op = 0x02 then some .st
  else if op = 0x03 then some .add
  else if op = 0x07 then some .sub
  else if op = 0x05 then some .jmp
  else if op = 0x06 then some .jze
  else none

/-- The fetch tick of R90. -/
def ninetyFetch (s : State) : State :=
  if (memRead s.pc s).toNat = 0x00 then { s with pc := mod256 (s.pc.toNat + 1) }
  else if (memRead s.pc s).toNat = 0x04 then { s with error := true }
  else
    match ninetyKind (memRead s.pc s).toNat with
    | some kind =>
      { s with
        inflight := some { kind := kind, step := .step0, operand := s.mem.read ((s.pc.toNat + 1) % 256) } }
    | none => { s with error := true }

/-- The flags after an ADD or SUB of accumulator `a` and data byte `m`, as R123 writes them. -/
def arithFlags (mode : FlagMode) (kind : Kind) (a m : Nat) (s : State) : Bool × Bool :=
  if mode = .original then (s.overflow, s.zero)
  else if kind = .add then (Nat.blt 255 (a + m), (a + m) % 256 == 0)
  else (Nat.blt a m, (a + 256 - m) % 256 == 0)

/-- The final step of R90, less the removal of the record; also the whole effect of the instruction `kind k` (R86). -/
def ninetyEffect (mode : FlagMode) (kind : Kind) (k : Byte) (s : State) : State :=
  match kind with
  | .ld => { s with acc := s.mem.read k.toNat, pc := mod256 (s.pc.toNat + 2) }
  | .st => { s with mem := s.mem.write k.toNat s.acc, pc := mod256 (s.pc.toNat + 2) }
  | .add =>
    { s with
      acc := mod256 (s.acc.toNat + (s.mem.read k.toNat).toNat)
      pc := mod256 (s.pc.toNat + 2)
      overflow := (arithFlags mode .add s.acc.toNat (s.mem.read k.toNat).toNat s).1
      zero := (arithFlags mode .add s.acc.toNat (s.mem.read k.toNat).toNat s).2 }
  | .sub =>
    { s with
      acc := mod256 (s.acc.toNat + 256 - (s.mem.read k.toNat).toNat)
      pc := mod256 (s.pc.toNat + 2)
      overflow := (arithFlags mode .sub s.acc.toNat (s.mem.read k.toNat).toNat s).1
      zero := (arithFlags mode .sub s.acc.toNat (s.mem.read k.toNat).toNat s).2 }
  | .jmp => { s with pc := k }
  | .jze => { s with pc := k }

/-- The complete definition of `Tick`, R90 transcribed line by line: an independent reading that `stepIn` must equal. -/
def ninety (mode : FlagMode) (s : State) : State :=
  if s.error = true then s
  else
    match s.inflight with
    | none => ninetyFetch s
    | some r =>
      if r.step = .step0 then
        if r.kind = .jze ∧ s.acc ≠ 0#8 then { s with pc := mod256 (s.pc.toNat + 2), inflight := none }
        else { s with inflight := some { r with step := .step1 } }
      else { ninetyEffect mode r.kind r.operand s with inflight := none }

/-- The number of ticks an instruction takes, begun in state `s` (R87). -/
def ticks (i : Instr) (s : State) : Nat :=
  match i with
  | .nop => 1
  | .halt => 1
  | .ld _ => 3
  | .st _ => 3
  | .add _ => 3
  | .sub _ => 3
  | .jmp _ => 3
  | .jze _ => if s.acc = 0#8 then 3 else 2

/-- The whole effect of an instruction on the state a program sees (R100 to R140): the machine one instruction at a
time, with no ticks and no record. -/
def effect (mode : FlagMode) (i : Instr) (s : State) : State :=
  match i with
  | .nop => { s with pc := mod256 (s.pc.toNat + 1) }
  | .halt => { s with error := true }
  | .ld k => ninetyEffect mode .ld k s
  | .st k => ninetyEffect mode .st k s
  | .add k => ninetyEffect mode .add k s
  | .sub k => ninetyEffect mode .sub k s
  | .jmp k => { s with pc := k }
  | .jze k => if s.acc = 0#8 then { s with pc := k } else { s with pc := mod256 (s.pc.toNat + 2) }

/-- One instruction, or one illegal byte, of the machine a program sees: the ticks it takes and the state after it; an
ended run takes no ticks (R87, R155, R191). -/
def isaStep (mode : FlagMode) (s : State) : Nat × State :=
  if s.error = true then (0, s)
  else
    match decode (fetchBytes s) with
    | .ok (i, _) => (ticks i s, effect mode i s)
    | .error _ => (1, { s with error := true })

/-- `n` instructions one after another: the sum of their ticks and the state after them (R87). -/
def isaRun (mode : FlagMode) : Nat → State → Nat × State
  | 0, s => (0, s)
  | n + 1, s =>
    ((isaStep mode s).1 + (isaRun mode n (isaStep mode s).2).1, (isaRun mode n (isaStep mode s).2).2)

/-- The machine in a given configuration, as the host's interface takes one. -/
def coreIn (cfg : Config) : Host.Core :=
  { State := State, Fault := Fault, Refusal := Refusal, step := stepIn cfg, reset := State.reset }

end Sys2Proof.Safety
end

