-- ==== Sys2Proof/Certificates/Slice0/Obligations.lean ====
section
/-! DEFINITION. The statements for the provers. Each docstring names the rule of spec/ it formalises. A tick of the machine in
configuration `cfg` is `stepIn cfg`; `step` is its case at the spec's defaults. -/

open Sys2Proof Sys2Proof.Machine Sys2Proof.Safety

/-! ### Reset, start-up and the host -/

/-- R32, R180: `Reset` has the same effect in every state, before the first `Reset` as well: every item at the value the
rule gives, memory unchanged, and the next tick is a fetch tick at address 0. -/
def Obligations.ResetGivesTheRuleValues : Prop :=
  ∀ (cfg : Config) (sys : System), cfg.wellFormed = true →
    ∃ s, handle cfg .reset sys = .next (.live s, .done) ∧
      s.pc = 0#8 ∧ s.acc = 0#8 ∧ s.overflow = false ∧ s.zero = false ∧ s.error = false ∧ s.inflight = none ∧
      s.mem = sys.mem ∧ stepIn cfg s = fetchTick (execIn cfg) s

/-- R32, R54, R183: the state the host's interface starts from is construction followed by `Reset`. -/
def Obligations.ResetStateIsConstructionThenReset : Prop :=
  handle config .reset System.powerOn = .next (.live State.reset, .done) ∧
  State.reset.pc = 0#8 ∧ State.reset.acc = 0#8 ∧ State.reset.overflow = false ∧ State.reset.zero = false ∧
  State.reset.error = false ∧ State.reset.inflight = none ∧ ∀ a, State.reset.mem.read a = 0#8

/-- R33, R54: before the first `Reset` every cell is 0 and a `Tick` is refused. That an `Observe` is refused too is no clause
of R33 but the model's (log entry 5, from 93_implementation_defined.md U5): its answer would need a value that the core
does not hold. -/
def Obligations.NothingRunsBeforeTheFirstReset : Prop :=
  (∀ a, System.powerOn.mem.read a = 0#8) ∧
  ∀ (cfg : Config) (m : Memory), cfg.wellFormed = true →
    handle cfg .tick (.constructed m) = .refused .tickBeforeReset ∧
    handle cfg .observe (.constructed m) = .refused .observeBeforeReset

/-- R53: a host access to a cell reads it or writes it and nothing else, in every state of the system; one outside
`[0, MEM_CAPACITY)` is rejected and changes nothing. -/
def Obligations.HostAccessIsCheckedAgainstTheCapacity : Prop :=
  ∀ (cfg : Config) (a : Int) (v : Byte) (sys : System), cfg.wellFormed = true → sys.mem.wf = true →
    (0 ≤ a ∧ a < cfg.memCapacity →
      handle cfg (.hostRead a) sys = .next (sys, .byte (sys.mem.read a.toNat)) ∧
      ∃ m, handle cfg (.hostWrite a v) sys = .next (sys.withMem m, .done) ∧
        ∀ c : Nat, m.read c = if (c : Int) = a then v else sys.mem.read c) ∧
    (¬ (0 ≤ a ∧ a < cfg.memCapacity) →
      handle cfg (.hostRead a) sys = .next (sys, .rejected) ∧
      handle cfg (.hostWrite a v) sys = .next (sys, .rejected))

/-- R34, R163: `Observe` shows the five registers and flags, changes nothing, and does not show the in-flight record. -/
def Obligations.ObserveShowsTheRegistersOnly : Prop :=
  ∀ (cfg : Config) (s : State) (r : Option Inflight), cfg.wellFormed = true →
    handle cfg .observe (.live s) = .next (.live s,
      .registers { pc := s.pc, acc := s.acc, overflow := s.overflow, zero := s.zero, error := s.error }) ∧
    handle cfg .observe (.live { s with inflight := r }) = .next (.live { s with inflight := r }, .registers (observe s))

/-- R160, R80: a `Tick` after a `Reset` always has a next state and answers the host nothing, the tick that raises the
machine fault like any other. -/
def Obligations.EveryTickReturnsNothing : Prop :=
  ∀ (cfg : Config) (s : State), cfg.wellFormed = true →
    ∃ t, stepIn cfg s = .next t ∧ handle cfg .tick (.live s) = .next (.live t, .done)

/-! ### Encoding -/

/-- R63, 95_test_vectors.md section 4: words written out from the opcode map. -/
def Obligations.WrittenWordsDecode : Prop :=
  decode [0x00#8, 0xAA#8] = .ok (.nop, [0xAA#8]) ∧ decode [0x01#8, 0x2A#8] = .ok (.ld 0x2A#8, []) ∧
  decode [0x02#8, 0x00#8] = .ok (.st 0x00#8, []) ∧ decode [0x03#8, 0xFF#8] = .ok (.add 0xFF#8, []) ∧
  decode [0x04#8, 0xAA#8] = .ok (.halt, [0xAA#8]) ∧ decode [0x05#8, 0x05#8] = .ok (.jmp 0x05#8, []) ∧
  decode [0x06#8, 0x30#8] = .ok (.jze 0x30#8, []) ∧ decode [0x07#8, 0x30#8] = .ok (.sub 0x30#8, []) ∧
  decode [0x08#8, 0xAA#8] = .error (.illegalOpcode 0x08#8) ∧ decode [0x81#8, 0xAA#8] = .error (.illegalOpcode 0x81#8)

/-- R60 to R63, R66: the decoder reads an instruction from some bytes exactly when they begin with its encoding. -/
def Obligations.DecodeExactlyInvertsEncode : Prop :=
  ∀ (bytes : List Byte) (i : Instr) (rest : List Byte),
    decode bytes = .ok (i, rest) ↔ i.wellFormed = true ∧ bytes = encode i ++ rest

/-- R71: in the opcode table's numbering, first byte least significant, every instruction decodes from the number of its
bytes at the row's length. -/
def Obligations.TableNumberDecodesToItsInstruction : Prop :=
  ∀ i : Instr, decodeTableWord (8 * i.length) ((encode i).foldr (fun b n => b.toNat + 256 * n) 0) = some i

/-- R63: the full map of the 256 values of the opcode byte, whatever bytes follow. -/
def Obligations.OpcodeMapOfRule63 : Prop :=
  ∀ (b k : Byte) (rest : List Byte),
    (b = 0x00#8 → decode (b :: k :: rest) = .ok (.nop, k :: rest)) ∧
    (b = 0x01#8 → decode (b :: k :: rest) = .ok (.ld k, rest)) ∧
    (b = 0x02#8 → decode (b :: k :: rest) = .ok (.st k, rest)) ∧
    (b = 0x03#8 → decode (b :: k :: rest) = .ok (.add k, rest)) ∧
    (b = 0x04#8 → decode (b :: k :: rest) = .ok (.halt, k :: rest)) ∧
    (b = 0x05#8 → decode (b :: k :: rest) = .ok (.jmp k, rest)) ∧
    (b = 0x06#8 → decode (b :: k :: rest) = .ok (.jze k, rest)) ∧
    (b = 0x07#8 → decode (b :: k :: rest) = .ok (.sub k, rest)) ∧
    (0x08 ≤ b.toNat → decode (b :: k :: rest) = .error (.illegalOpcode b))

/-- R60: the length of an instruction is decided by its opcode byte alone: NOP and HALT one byte, the others two. -/
def Obligations.LengthIsDecidedByTheOpcodeByte : Prop :=
  ∀ (b : Byte) (tail : List Byte) (i : Instr) (rest : List Byte), decode (b :: tail) = .ok (i, rest) →
    i.length + rest.length = tail.length + 1 ∧
    (i.length = 1 ↔ b = 0x00#8 ∨ b = 0x04#8) ∧
    (i.length = 2 ↔ b = 0x01#8 ∨ b = 0x02#8 ∨ b = 0x03#8 ∨ b = 0x05#8 ∨ b = 0x06#8 ∨ b = 0x07#8)

/-! ### The tick -/

/-- R81, R82, R84: a tick runs the current instruction: the one decoded at `pc` when nothing is in flight, else the one in
flight. -/
def Obligations.StepRunsTheCurrentInstruction : Prop :=
  (∀ (s : State) (i : Instr) (rest : List Byte), s.error = false → s.inflight = none → i.wellFormed = true →
    decode (fetchBytes s) = .ok (i, rest) → step s = exec i s) ∧
  (∀ (s : State) (r : Inflight), s.error = false → s.inflight = some r →
    step s = exec (r.kind.toInstr r.operand) s)

/-- R82 over log entry 1: an instruction placed by `withFetchWord` is the one the very next tick runs. -/
def Obligations.PlacedWordRunsNext : Prop :=
  ∀ (s : State) (nbits w : Nat) (i : Instr), s.mem.wf = true → decodeTableWord nbits w = some i →
    step (s.withFetchWord nbits w) = exec i (s.withFetchWord nbits w) ∧
    (s.withFetchWord nbits w).pc = s.pc ∧ (s.withFetchWord nbits w).acc = s.acc ∧
    (s.withFetchWord nbits w).overflow = s.overflow ∧ (s.withFetchWord nbits w).zero = s.zero

/-- R155: while `error` is set a tick changes nothing and accesses no memory, for any number of ticks, and no event but
`Reset` clears it. -/
def Obligations.HaltedUntilReset : Prop :=
  ∀ s : State, s.error = true →
    step s = .next s ∧ tickAccesses s = [] ∧ (∀ n, Host.Core.run core n s = .next s) ∧
    ∀ (cfg : Config) (e : Event) (sys : System) (r : Reply), e ≠ .reset → handle cfg e (.live s) = .next (sys, r) →
      ∃ t, sys = .live t ∧ t.error = true ∧ t.pc = s.pc ∧ t.acc = s.acc

/-- R82: the fetch tick, for each value of the opcode byte. -/
def Obligations.FetchTickOfRule82 : Prop :=
  ∀ s : State, s.error = false → s.inflight = none →
    (memRead s.pc s = 0x00#8 → step s = .next { s with pc := mod256 (s.pc.toNat + 1) }) ∧
    (memRead s.pc s = 0x04#8 → step s = .next { s with error := true }) ∧
    (∀ op kind, (op, kind) ∈ [(0x01#8, Kind.ld), (0x02#8, Kind.st), (0x03#8, Kind.add), (0x07#8, Kind.sub),
        (0x05#8, Kind.jmp), (0x06#8, Kind.jze)] → memRead s.pc s = op →
      step s = .next { s with
        inflight := some { kind := kind, step := .step0, operand := s.mem.read ((s.pc.toNat + 1) % 256) } }) ∧
    (0x08 ≤ (memRead s.pc s).toNat → step s = .next { s with error := true })

/-- R65: a byte from 0x08 up raises the machine fault when it is fetched as an opcode, with nothing else changed; as an
operand every byte is good. -/
def Obligations.IllegalOpcodeByteFaults : Prop :=
  (∀ s : State, s.error = false → s.inflight = none → 0x08 ≤ (memRead s.pc s).toNat →
    step s = .next { s with error := true }) ∧
  (∀ (kind : Kind) (k : Byte), ∃ b, decode [b, k] = .ok (kind.toInstr k, []))

/-- R85: the operand step. -/
def Obligations.OperandStepOfRule85 : Prop :=
  ∀ (s : State) (kind : Kind) (k : Byte), s.error = false →
    s.inflight = some { kind := kind, step := .step0, operand := k } →
    (kind ≠ .jze → step s = .next { s with inflight := some { kind := kind, step := .step1, operand := k } }) ∧
    (kind = .jze ∧ s.acc ≠ 0#8 → step s = .next { s with pc := mod256 (s.pc.toNat + 2), inflight := none }) ∧
    (kind = .jze ∧ s.acc = 0#8 →
      step s = .next { s with inflight := some { kind := .jze, step := .step1, operand := k } })

/-- R86: the final step of each kind (in `FLAG_MODE = original`), with the record removed in the same tick. -/
def Obligations.FinalStepOfRule86 : Prop :=
  ∀ (s : State) (kind : Kind) (k : Byte), s.error = false →
    s.inflight = some { kind := kind, step := .step1, operand := k } →
    (kind = .ld → step s = .next
      { s with acc := memRead k s, pc := mod256 (s.pc.toNat + 2), inflight := none }) ∧
    (kind = .st → step s = .next
      { memWrite k s.acc s with pc := mod256 (s.pc.toNat + 2), inflight := none }) ∧
    (kind = .add → step s = .next
      { s with acc := mod256 (s.acc.toNat + (memRead k s).toNat), pc := mod256 (s.pc.toNat + 2), inflight := none }) ∧
    (kind = .sub → step s = .next
      { s with acc := mod256 (s.acc.toNat + 256 - (memRead k s).toNat), pc := mod256 (s.pc.toNat + 2), inflight := none }) ∧
    (kind = .jmp ∨ kind = .jze → step s = .next { s with pc := k, inflight := none })

/-- R90: the whole tick is the one function of the rule, in every state and for both values of `FLAG_MODE`. -/
def Obligations.TickIsTheFunctionOfRule90 : Prop :=
  (∀ (cfg : Config) (s : State), cfg.wellFormed = true → stepIn cfg s = .next (ninety cfg.flagMode s)) ∧
  ∀ s : State, step s = .next (ninety .original s)

/-- R89, R10: no tick is stuck, and one that is not Halted makes progress: the state after it differs. -/
def Obligations.EveryTickMakesProgress : Prop :=
  ∀ (cfg : Config) (s : State), cfg.wellFormed = true → ∃ t, stepIn cfg s = .next t ∧ (s.error = false → t ≠ s)

/-- R91, with the tick counts of R87: from its fetch tick on, an instruction shows nothing but its hidden record until its
last tick, and after that tick its whole effect. -/
def Obligations.EffectIsVisibleAtTheLastTickOnly : Prop :=
  ∀ (cfg : Config) (s : State) (i : Instr) (rest : List Byte), cfg.wellFormed = true →
    s.error = false → s.inflight = none → decode (fetchBytes s) = .ok (i, rest) →
    Host.Core.run (coreIn cfg) (ticks i s) s = .next (effect cfg.flagMode i s) ∧
    (effect cfg.flagMode i s).inflight = none ∧
    ∀ n, 0 < n → n < ticks i s → ∃ r, Host.Core.run (coreIn cfg) n s = .next { s with inflight := some r }

/-- R87, R88, R191: the tick machine runs the machine a program sees: any number of instructions takes the sum of their
ticks and ends in the state of their effects, through faults and the Halted state as well. -/
def Obligations.TickMachineRefinesInstructionMachine : Prop :=
  ∀ (cfg : Config) (n : Nat) (s : State), cfg.wellFormed = true → s.inflight = none →
    Host.Core.run (coreIn cfg) (isaRun cfg.flagMode n s).1 s = .next (isaRun cfg.flagMode n s).2

/-- R88: an instruction in flight is neither replaced nor cancelled by a tick: the tick keeps its record with the step
raised and changes nothing else, or it completes the instruction, by the final step's whole effect or as a JZE not taken,
and removes the record in the same tick; and within two ticks it has completed so. -/
def Obligations.InFlightInstructionRunsToCompletion : Prop :=
  ∀ (cfg : Config) (s : State) (r : Inflight), cfg.wellFormed = true → s.error = false → s.inflight = some r →
    (∃ t, stepIn cfg s = .next t ∧
      ((r.step = .step0 ∧ ¬ (r.kind = .jze ∧ s.acc ≠ 0#8) ∧ t = { s with inflight := some { r with step := .step1 } }) ∨
        (r.step = .step1 ∧ t = { ninetyEffect cfg.flagMode r.kind r.operand s with inflight := none }) ∨
        (r.step = .step0 ∧ r.kind = .jze ∧ s.acc ≠ 0#8 ∧
          t = { s with pc := mod256 (s.pc.toNat + 2), inflight := none }))) ∧
    ∃ n t, 0 < n ∧ n ≤ 2 ∧ Host.Core.run (coreIn cfg) n s = .next t ∧
      ((¬ (r.step = .step0 ∧ r.kind = .jze ∧ s.acc ≠ 0#8) ∧
          t = { ninetyEffect cfg.flagMode r.kind r.operand s with inflight := none }) ∨
        (r.step = .step0 ∧ r.kind = .jze ∧ s.acc ≠ 0#8 ∧
          t = { s with pc := mod256 (s.pc.toNat + 2), inflight := none }))

/-- R22: `pc` moves only in the tick that completes an instruction: while a record is in flight after a tick, and when the
tick raises the fault, it is as before. -/
def Obligations.PcMovesOnlyAtCompletion : Prop :=
  ∀ (cfg : Config) (s t : State), stepIn cfg s = .next t → t.pc ≠ s.pc →
    s.error = false ∧ t.error = false ∧ t.inflight = none ∧
    ((s.inflight = none ∧ memRead s.pc s = 0x00#8 ∧ t.pc = mod256 (s.pc.toNat + 1)) ∨
      ∃ r, s.inflight = some r ∧
        (t.pc = mod256 (s.pc.toNat + 2) ∨ (t.pc = r.operand ∧ (r.kind = .jmp ∨ r.kind = .jze))))

/-! ### The machine fault -/

/-- R151, R153: a tick sets `error` exactly when it is a fetch tick that finds 0x04 or an illegal byte, and then nothing
else changes; no other event sets it. -/
def Obligations.FaultHasTwoCausesAndOneEffect : Prop :=
  (∀ (cfg : Config) (s t : State), stepIn cfg s = .next t → s.error = false →
    (t.error = true ↔ s.inflight = none ∧ (memRead s.pc s = 0x04#8 ∨ 0x08 ≤ (memRead s.pc s).toNat)) ∧
    (t.error = true → t = { s with error := true })) ∧
  ∀ (cfg : Config) (e : Event) (s t : State) (r : Reply), e ≠ .tick →
    handle cfg e (.live s) = .next (.live t, r) → s.error = false → t.error = false

/-- R191: a run that has ended has ended for good: however many ticks follow, the final state stays as it is. -/
def Obligations.EndedRunKeepsItsFinalState : Prop :=
  ∀ (cfg : Config) (n m : Nat) (s t : State), cfg.wellFormed = true → Host.Core.run (coreIn cfg) n s = .next t →
    Ended t → Host.Core.run (coreIn cfg) (n + m) s = .next t

/-- R165: right after the tick that raised the fault, one read of `mem[pc]` tells the host which cause it was. -/
def Obligations.FaultCauseIsReadFromMemory : Prop :=
  ∀ (cfg : Config) (s t : State), stepIn cfg s = .next t → s.error = false → t.error = true →
    (faultCause t = some .halt ↔ ∃ rest, decode (fetchBytes s) = .ok (.halt, rest)) ∧
    (faultCause t = some .illegalOpcode ↔ ∃ b, decode (fetchBytes s) = .error (.illegalOpcode b)) ∧
    faultCause t ≠ none

/-! ### Memory -/

/-- R41: a read returns the value last written to the cell, or 0 if none was since construction; a write changes no other
item of the state. -/
def Obligations.ReadReturnsTheLastWrite : Prop :=
  (∀ (ws : List (Nat × Byte)) (a : Nat),
    (ws.foldl (fun m w => Memory.write m w.1 w.2) Memory.fresh).read a =
      ((ws.reverse.find? fun w => decide (w.1 = a)).map Prod.snd).getD 0#8) ∧
  ∀ (s : State) (a c v : Byte), s.mem.wf = true →
    memRead c (memWrite a v s) = (if c = a then v else memRead c s) ∧ (memWrite a v s).mem.wf = true ∧
    memWrite a v s = { s with mem := (memWrite a v s).mem }

/-- R48: the accesses of a tick, row by row. -/
def Obligations.AccessTableOfRule48 : Prop :=
  (∀ s : State, s.error = true → tickAccesses s = []) ∧
  (∀ s : State, s.error = false → s.inflight = none →
    (memRead s.pc s = 0x00#8 ∨ memRead s.pc s = 0x04#8 ∨ 0x08 ≤ (memRead s.pc s).toNat →
      tickAccesses s = [.read s.pc]) ∧
    (memRead s.pc s ∈ [0x01#8, 0x02#8, 0x03#8, 0x05#8, 0x06#8, 0x07#8] →
      tickAccesses s = [.read s.pc, .read (mod256 (s.pc.toNat + 1))])) ∧
  (∀ (s : State) (kind : Kind) (k : Byte), s.error = false →
    (s.inflight = some { kind := kind, step := .step0, operand := k } → tickAccesses s = []) ∧
    (s.inflight = some { kind := kind, step := .step1, operand := k } →
      (kind = .ld ∨ kind = .add ∨ kind = .sub → tickAccesses s = [.read k]) ∧
      (kind = .st → tickAccesses s = [.write k]) ∧
      (kind = .jmp ∨ kind = .jze → tickAccesses s = [])))

/-- R48, R31: a tick changes no cell but the one its write access names. -/
def Obligations.TickWritesOnlyItsWriteAccess : Prop :=
  ∀ (cfg : Config) (s t : State), s.mem.wf = true → stepIn cfg s = .next t →
    ∀ a : Nat, (∀ b : Byte, Access.write b ∈ tickAccesses s → a ≠ b.toNat) → t.mem.read a = s.mem.read a

/-- R48, R46: what a tick does depends on no cell but those its read accesses name: two machines that agree on these and
on the core's registers agree on the registers after the tick and on the cell written. -/
def Obligations.TickDependsOnlyOnItsReads : Prop :=
  ∀ (cfg : Config) (s : State) (m : Memory), cfg.wellFormed = true → s.mem.wf = true → m.wf = true →
    (∀ b : Byte, Access.read b ∈ tickAccesses s → m.read b.toNat = s.mem.read b.toNat) →
    ∃ t u, stepIn cfg s = .next t ∧ stepIn cfg { s with mem := m } = .next u ∧
      u = { t with mem := u.mem } ∧
      ∀ a : Nat, ((∃ b : Byte, Access.write b ∈ tickAccesses s ∧ a = b.toNat) → u.mem.read a = t.mem.read a) ∧
        ((∀ b : Byte, Access.write b ∈ tickAccesses s → a ≠ b.toNat) → u.mem.read a = m.read a)

/-- R43: a configuration with fewer than 256 cells is refused; in any other the core forms only addresses of existing
cells, and no tick reads, writes or executes a cell from 256 up. -/
def Obligations.CoreReachesCellsBelow256Only : Prop :=
  (∀ (cfg : Config) (e : Event) (sys : System) (s : State), cfg.memCapacity < 256 →
    handle cfg e sys = .refused .capacityTooSmall ∧ stepIn cfg s = .refused .capacityTooSmall) ∧
  (∀ (cfg : Config) (s : State) (b : Byte), 256 ≤ cfg.memCapacity →
    (Access.read b ∈ tickAccesses s ∨ Access.write b ∈ tickAccesses s → b.toNat < cfg.memCapacity)) ∧
  (∀ (cfg : Config) (s : State) (m : Memory), 256 ≤ cfg.memCapacity → s.mem.wf = true → m.wf = true →
    (∀ a, a < 256 → m.read a = s.mem.read a) →
    ∃ t u, stepIn cfg s = .next t ∧ stepIn cfg { s with mem := m } = .next u ∧ u = { t with mem := u.mem } ∧
      (∀ a, a < 256 → u.mem.read a = t.mem.read a) ∧ (∀ a, 256 ≤ a → t.mem.read a = s.mem.read a))

/-- R52, R187: a byte stored by ST is what the very next fetch tick finds, as an opcode or as an operand. -/
def Obligations.FetchSeesTheStoreBeforeIt : Prop :=
  ∀ (s : State) (k : Byte), s.mem.wf = true → s.error = false →
    s.inflight = some { kind := .st, step := .step1, operand := k } →
    ∃ t, step s = .next t ∧ t.error = false ∧ t.inflight = none ∧ t.pc = mod256 (s.pc.toNat + 2) ∧
      fetchBytes t = [if t.pc = k then s.acc else memRead t.pc s,
        if t.pc + 1#8 = k then s.acc else memRead (t.pc + 1#8) s]

/-- R185, R186: the operand is captured in the fetch tick, the data byte is read or written in the third, whatever the host
has made of the memory after the first tick (`m1`) and after the second (`m2`). -/
def Obligations.OperandIsCapturedAndDataIsReadLate : Prop :=
  ∀ (s : State) (m1 m2 : Memory) (op k : Byte), m2.wf = true → s.error = false → s.inflight = none →
    memRead s.pc s = op → memRead (s.pc + 1#8) s = k →
    op ∈ [0x01#8, 0x02#8, 0x03#8, 0x05#8, 0x06#8, 0x07#8] → (op = 0x06#8 → s.acc = 0#8) →
    ∃ t1 t2 t3, step s = .next t1 ∧ step { t1 with mem := m1 } = .next t2 ∧ step { t2 with mem := m2 } = .next t3 ∧
      t3.error = false ∧ t3.inflight = none ∧
      (op = 0x05#8 ∨ op = 0x06#8 → t3.pc = k ∧ t3.acc = s.acc ∧ t3.mem = m2) ∧
      (op ≠ 0x05#8 → op ≠ 0x06#8 → t3.pc = mod256 (s.pc.toNat + 2)) ∧
      (op = 0x01#8 → t3.acc = m2.read k.toNat ∧ t3.mem = m2) ∧
      (op = 0x03#8 → t3.acc = mod256 (s.acc.toNat + (m2.read k.toNat).toNat) ∧ t3.mem = m2) ∧
      (op = 0x07#8 → t3.acc = mod256 (s.acc.toNat + 256 - (m2.read k.toNat).toNat) ∧ t3.mem = m2) ∧
      (op = 0x02#8 → t3.acc = s.acc ∧ ∀ a, t3.mem.read a = if a = k.toNat then s.acc else m2.read a)

/-- R181: a `Reset` between two ticks of an instruction discards it without trace: the result is that of a `Reset` before
its fetch tick. -/
def Obligations.ResetDiscardsTheInstructionWithoutTrace : Prop :=
  ∀ (cfg : Config) (s t : State) (i : Instr) (rest : List Byte) (n : Nat), cfg.wellFormed = true →
    s.error = false → s.inflight = none → decode (fetchBytes s) = .ok (i, rest) →
    n < ticks i s → Host.Core.run (coreIn cfg) n s = .next t →
    handle cfg .reset (.live t) = handle cfg .reset (.live s) ∧ t.mem = s.mem ∧ t.acc = s.acc

/-! ### The instructions -/

/-- R100: NOP takes one tick, moves `pc` by one modulo 256 and changes nothing else. -/
def Obligations.NopOfRule100 : Prop :=
  (∀ rest, decode (0x00#8 :: rest) = .ok (.nop, rest)) ∧
  ∀ s : State, s.error = false → s.inflight = none →
    exec .nop s = .next { s with pc := mod256 (s.pc.toNat + 1) } ∧ (∀ cfg, execIn cfg .nop s = exec .nop s) ∧
    (memRead s.pc s = 0x00#8 → step s = exec .nop s)

/-- R110: LD, its three ticks and their whole effect, in either `FLAG_MODE`. -/
def Obligations.LdOfRule110 : Prop :=
  ∀ (k : Byte), (∀ rest, decode (0x01#8 :: k :: rest) = .ok (.ld k, rest)) ∧
  ∀ s : State, s.error = false →
    (s.inflight = none →
      exec (.ld k) s = .next { s with inflight := some { kind := .ld, step := .step0, operand := k } }) ∧
    (s.inflight = some { kind := .ld, step := .step0, operand := k } →
      exec (.ld k) s = .next { s with inflight := some { kind := .ld, step := .step1, operand := k } }) ∧
    (s.inflight = some { kind := .ld, step := .step1, operand := k } →
      exec (.ld k) s = .next
        { s with acc := s.mem.read (operandAddress k), pc := mod256 (s.pc.toNat + 2), inflight := none }) ∧
    (∀ cfg, execIn cfg (.ld k) s = exec (.ld k) s)

/-- R111: ST, its three ticks; the third stores the accumulator to the operand's cell and to no other. -/
def Obligations.StOfRule111 : Prop :=
  ∀ (k : Byte), (∀ rest, decode (0x02#8 :: k :: rest) = .ok (.st k, rest)) ∧
  ∀ s : State, s.error = false → s.mem.wf = true →
    (s.inflight = none →
      exec (.st k) s = .next { s with inflight := some { kind := .st, step := .step0, operand := k } }) ∧
    (s.inflight = some { kind := .st, step := .step0, operand := k } →
      exec (.st k) s = .next { s with inflight := some { kind := .st, step := .step1, operand := k } }) ∧
    (s.inflight = some { kind := .st, step := .step1, operand := k } →
      ∃ m, exec (.st k) s = .next { s with mem := m, pc := mod256 (s.pc.toNat + 2), inflight := none } ∧
        m.wf = true ∧ m.read (operandAddress k) = s.acc ∧
        ∀ a, a ≠ operandAddress k → m.read a = s.mem.read a) ∧
    (∀ cfg, execIn cfg (.st k) s = exec (.st k) s)

/-- R120: ADD, its three ticks; the third adds modulo 256, and writes the flags as `FLAG_MODE` says. -/
def Obligations.AddOfRule120 : Prop :=
  ∀ (k : Byte), (∀ rest, decode (0x03#8 :: k :: rest) = .ok (.add k, rest)) ∧
  ∀ s : State, s.error = false →
    (s.inflight = none →
      exec (.add k) s = .next { s with inflight := some { kind := .add, step := .step0, operand := k } }) ∧
    (s.inflight = some { kind := .add, step := .step0, operand := k } →
      exec (.add k) s = .next { s with inflight := some { kind := .add, step := .step1, operand := k } }) ∧
    (s.inflight = some { kind := .add, step := .step1, operand := k } →
      exec (.add k) s = .next
        { s with
          acc := mod256 (s.acc.toNat + (s.mem.read (operandAddress k)).toNat)
          pc := mod256 (s.pc.toNat + 2)
          inflight := none } ∧
      ∀ cfg, execIn cfg (.add k) s = .next
        { s with
          acc := mod256 (s.acc.toNat + (s.mem.read (operandAddress k)).toNat)
          pc := mod256 (s.pc.toNat + 2)
          inflight := none
          overflow := (arithFlags cfg.flagMode .add s.acc.toNat (s.mem.read (operandAddress k)).toNat s).1
          zero := (arithFlags cfg.flagMode .add s.acc.toNat (s.mem.read (operandAddress k)).toNat s).2 })

/-- R121: SUB, its three ticks; the third subtracts `mem[k]` from the accumulator modulo 256, and writes the flags as
`FLAG_MODE` says. -/
def Obligations.SubOfRule121 : Prop :=
  ∀ (k : Byte), (∀ rest, decode (0x07#8 :: k :: rest) = .ok (.sub k, rest)) ∧
  ∀ s : State, s.error = false →
    (s.inflight = none →
      exec (.sub k) s = .next { s with inflight := some { kind := .sub, step := .step0, operand := k } }) ∧
    (s.inflight = some { kind := .sub, step := .step0, operand := k } →
      exec (.sub k) s = .next { s with inflight := some { kind := .sub, step := .step1, operand := k } }) ∧
    (s.inflight = some { kind := .sub, step := .step1, operand := k } →
      exec (.sub k) s = .next
        { s with
          acc := mod256 (s.acc.toNat + 256 - (s.mem.read (operandAddress k)).toNat)
          pc := mod256 (s.pc.toNat + 2)
          inflight := none } ∧
      ∀ cfg, execIn cfg (.sub k) s = .next
        { s with
          acc := mod256 (s.acc.toNat + 256 - (s.mem.read (operandAddress k)).toNat)
          pc := mod256 (s.pc.toNat + 2)
          inflight := none
          overflow := (arithFlags cfg.flagMode .sub s.acc.toNat (s.mem.read (operandAddress k)).toNat s).1
          zero := (arithFlags cfg.flagMode .sub s.acc.toNat (s.mem.read (operandAddress k)).toNat s).2 })

/-- R122: the laws of the two operations, in either `FLAG_MODE`: the results are exact modulo 256, ADD is commutative in
its two inputs, SUB undoes ADD, and adding `256 - m` is subtracting `m` for `m` other than 0. -/
def Obligations.ArithmeticIsModulo256 : Prop :=
  ∀ (cfg : Config) (k : Byte) (s u : State),
    s.inflight = some { kind := .add, step := .step1, operand := k } →
    u.inflight = some { kind := .sub, step := .step1, operand := k } →
    ∃ s' u', execIn cfg (.add k) s = .next s' ∧ execIn cfg (.sub k) u = .next u' ∧
      s'.acc.toNat = (s.acc.toNat + (s.mem.read k.toNat).toNat) % 256 ∧
      (u'.acc.toNat : Int) = ((u.acc.toNat : Int) - (u.mem.read k.toNat).toNat) % 256 ∧
      s'.error = s.error ∧ u'.error = u.error ∧
      (∀ v v' : State, v.inflight = s.inflight → v.acc = s.mem.read k.toNat → v.mem.read k.toNat = s.acc →
        execIn cfg (.add k) v = .next v' → v'.acc = s'.acc) ∧
      (u.acc = s'.acc → u.mem.read k.toNat = s.mem.read k.toNat → u'.acc = s.acc) ∧
      ((u.mem.read k.toNat).toNat ≠ 0 → u.acc = s.acc →
        (s.mem.read k.toNat).toNat = 256 - (u.mem.read k.toNat).toNat → s'.acc = u'.acc)

/-- R123: the two flags in `FLAG_MODE = arith`: what ADD and SUB write to them, that nothing else writes them but `Reset`,
which clears them, and that no instruction reads them. -/
def Obligations.ArithModeFlagsOfRule123 : Prop :=
  ∀ cfg : Config, cfg.flagMode = .arith →
    (∀ (k : Byte) (s : State), s.inflight = some { kind := .add, step := .step1, operand := k } →
      ∃ t, execIn cfg (.add k) s = .next t ∧
        (t.overflow = true ↔ s.acc.toNat + (s.mem.read k.toNat).toNat > 255) ∧
        (t.zero = true ↔ (s.acc.toNat + (s.mem.read k.toNat).toNat) % 256 = 0)) ∧
    (∀ (k : Byte) (s : State), s.inflight = some { kind := .sub, step := .step1, operand := k } →
      ∃ t, execIn cfg (.sub k) s = .next t ∧
        (t.overflow = true ↔ s.acc.toNat < (s.mem.read k.toNat).toNat) ∧
        (t.zero = true ↔ s.acc = s.mem.read k.toNat)) ∧
    (∀ (i : Instr) (s t : State), execIn cfg i s = .next t → (t.overflow, t.zero) ≠ (s.overflow, s.zero) →
      ∃ k r, (i = .add k ∨ i = .sub k) ∧ s.inflight = some r ∧ r.step = .step1) ∧
    (∀ s : State, (resetEvent s).overflow = false ∧ (resetEvent s).zero = false) ∧
    (∀ (i : Instr) (s : State) (o z : Bool), ∃ t u, execIn cfg i s = .next t ∧
      execIn cfg i { s with overflow := o, zero := z } = .next u ∧ u = { t with overflow := u.overflow, zero := u.zero })

/-- R24, R25: in `FLAG_MODE = original` no tick writes `overflow` or `zero`; and in either mode no tick reads them: other
values of the two before a tick either come out as they went in, with nothing else changed (always so in `original`), or
are both overwritten, and the tick then ends in the same state. -/
def Obligations.OriginalModeKeepsTheFlagsUnread : Prop :=
  (∀ (cfg : Config) (s t : State), cfg.flagMode = .original → stepIn cfg s = .next t →
    t.overflow = s.overflow ∧ t.zero = s.zero) ∧
  (∀ (cfg : Config) (s : State) (o z : Bool), cfg.wellFormed = true →
    ∃ t u, stepIn cfg s = .next t ∧ stepIn cfg { s with overflow := o, zero := z } = .next u ∧
      ((t.overflow = s.overflow ∧ t.zero = s.zero ∧ u = { t with overflow := o, zero := z }) ∨
        (cfg.flagMode = .arith ∧ u = t)))

/-- R130: JMP, its three ticks; the third sets `pc` to the operand and changes nothing else. -/
def Obligations.JmpOfRule130 : Prop :=
  ∀ (k : Byte), (∀ rest, decode (0x05#8 :: k :: rest) = .ok (.jmp k, rest)) ∧
  ∀ s : State, s.error = false →
    (s.inflight = none →
      exec (.jmp k) s = .next { s with inflight := some { kind := .jmp, step := .step0, operand := k } }) ∧
    (s.inflight = some { kind := .jmp, step := .step0, operand := k } →
      exec (.jmp k) s = .next { s with inflight := some { kind := .jmp, step := .step1, operand := k } }) ∧
    (s.inflight = some { kind := .jmp, step := .step1, operand := k } →
      exec (.jmp k) s = .next { s with pc := k, inflight := none }) ∧
    (∀ cfg, execIn cfg (.jmp k) s = exec (.jmp k) s)

/-- R131: JZE, not taken in two ticks and taken in three; the test is of the accumulator and of no flag. -/
def Obligations.JzeOfRule131 : Prop :=
  ∀ (k : Byte), (∀ rest, decode (0x06#8 :: k :: rest) = .ok (.jze k, rest)) ∧
  ∀ s : State, s.error = false →
    (s.inflight = none →
      exec (.jze k) s = .next { s with inflight := some { kind := .jze, step := .step0, operand := k } }) ∧
    (s.inflight = some { kind := .jze, step := .step0, operand := k } → s.acc.toNat ≠ 0 →
      exec (.jze k) s = .next { s with pc := mod256 (s.pc.toNat + 2), inflight := none }) ∧
    (s.inflight = some { kind := .jze, step := .step0, operand := k } → s.acc.toNat = 0 →
      exec (.jze k) s = .next { s with inflight := some { kind := .jze, step := .step1, operand := k } }) ∧
    (s.inflight = some { kind := .jze, step := .step1, operand := k } →
      exec (.jze k) s = .next { s with pc := k, inflight := none }) ∧
    (∀ cfg, execIn cfg (.jze k) s = exec (.jze k) s)

/-- R140: HALT raises the machine fault in one tick with nothing else changed; from then on every tick is a no-op. -/
def Obligations.HaltOfRule140 : Prop :=
  (∀ rest, decode (0x04#8 :: rest) = .ok (.halt, rest)) ∧
  ∀ s : State, s.error = false → s.inflight = none →
    exec .halt s = .next { s with error := true } ∧ (∀ cfg, execIn cfg .halt s = exec .halt s) ∧
    (memRead s.pc s = 0x04#8 → step s = exec .halt s) ∧
    ∀ n, Host.Core.run core n { s with error := true } = .next { s with error := true }

/-! ### Frames -/

/-- R21, R24 to R26, R48: NOP, LD, ADD, SUB, JMP, JZE and HALT store nothing: every byte of memory and both arithmetic flags
(`FLAG_MODE = original`) are as before; the accumulator is unchanged but for the final step of LD, ADD and SUB, `error` but
for HALT, and the in-flight record for NOP and HALT. -/
def Obligations.FrameOfTheNonStoringInstructions : Prop :=
  ∀ (i : Instr) (s t : State), (∀ k, i ≠ .st k) → exec i s = .next t →
    (∀ a, t.mem.read a = s.mem.read a) ∧ t.overflow = s.overflow ∧ t.zero = s.zero ∧
    (t.acc ≠ s.acc → ∃ k r, (i = .ld k ∨ i = .add k ∨ i = .sub k) ∧ s.inflight = some r ∧ r.step = .step1) ∧
    (t.error ≠ s.error → i = .halt) ∧ (i = .nop ∨ i = .halt → t.inflight = s.inflight)

/-- R21, R111, R48: ST changes no register but `pc`, no flag, and no byte of memory outside the cell its operand names; in
its first two ticks no byte at all. -/
def Obligations.FrameOfSt : Prop :=
  ∀ (k : Byte) (s t : State), s.mem.wf = true → exec (.st k) s = .next t →
    t.acc = s.acc ∧ t.overflow = s.overflow ∧ t.zero = s.zero ∧ t.error = s.error ∧
    (∀ a, a ≠ operandAddress k → t.mem.read a = s.mem.read a) ∧
    ((∀ r, s.inflight = some r → r.step = .step0) → ∀ a, t.mem.read a = s.mem.read a)

/-! ### Invariants -/

/-- R29: the three logical states, each by its condition, and the combination that no run reaches. -/
def Obligations.LogicalStatesOfRule29 : Prop :=
  (∀ s : State, (logicalState s = .halted ↔ s.error = true) ∧
    (logicalState s = .idle ↔ s.error = false ∧ s.inflight = none) ∧
    (logicalState s = .running ↔ s.error = false ∧ ∃ r, s.inflight = some r)) ∧
  ∀ (cfg : Config) (s : State), Inv cfg s → ¬ (s.error = true ∧ ∃ r, s.inflight = some r)

/-- R28, R30, R32: the invariant holds right after construction and `Reset`. -/
def Obligations.ResetMeetsTheInvariant : Prop :=
  ∀ cfg : Config, Inv cfg State.reset ∧ SystemInv cfg System.powerOn

/-- R24, R25, R28 to R31: every tick keeps the invariant, in every configuration. -/
def Obligations.TickKeepsTheInvariant : Prop :=
  (∀ (cfg : Config) (s t : State), Inv cfg s → stepIn cfg s = .next t → Inv cfg t) ∧
  ∀ (s t : State), Inv config s → step s = .next t → Inv config t

/-- R30, R53, R180: any sequence of events, host writes and resets between ticks included, keeps the invariant of the
system, and none of its answers but a `Tick` or an `Observe` before the first `Reset` is refused. -/
def Obligations.EventsKeepTheInvariant : Prop :=
  ∀ (cfg : Config) (es : List Event) (sys : System), cfg.wellFormed = true → SystemInv cfg sys →
    (∀ sys' rs, handleAll cfg es sys = .next (sys', rs) → SystemInv cfg sys' ∧ rs.length = es.length) ∧
    (∀ s, sys = .live s → ∃ t rs, handleAll cfg es sys = .next (.live t, rs) ∧ Inv cfg t)
end

