-- ==== Sys2Proof/Laws/Decode.lean ====
section
/-! SUPPORT. The opcode map and the decoder, case by case. -/

namespace Sys2Proof.Laws

open Sys2Proof Sys2Proof.Machine

/-- Two bytes of one value are one byte. -/
theorem byte_eq_of_toNat {b : Byte} {n : Nat} (h : b.toNat = n) : b = BitVec.ofNat 8 n := by
  rw [← h, BitVec.ofNat_toNat, BitVec.setWidth_eq]

/-- A byte is illegal exactly when it is 8 or more (R65). -/
theorem opcodeOfByte_none (b : Byte) : opcodeOfByte b = none ↔ 8 ≤ b.toNat := by
  unfold opcodeOfByte
  constructor
  · intro h
    by_contra hlt
    have : b.toNat ∈ List.range 8 := by simp; omega
    simp only [List.range, List.range.loop, List.mem_cons, List.not_mem_nil, or_false] at this
    rcases this with h0 | h0 | h0 | h0 | h0 | h0 | h0 | h0 <;> simp [h0] at h
  · intro h
    obtain ⟨n, hn⟩ : ∃ n, b.toNat = n + 8 := ⟨b.toNat - 8, by omega⟩
    rw [hn]
    rfl

/-- The opcode byte of an opcode (R63). -/
def opcodeByte : Opcode → Byte
  | .nop => 0x00#8
  | .halt => 0x04#8
  | .twoByte .ld => 0x01#8
  | .twoByte .st => 0x02#8
  | .twoByte .add => 0x03#8
  | .twoByte .jmp => 0x05#8
  | .twoByte .jze => 0x06#8
  | .twoByte .sub => 0x07#8

theorem opcodeOfByte_some {b : Byte} {op : Opcode} (h : opcodeOfByte b = some op) : b = opcodeByte op := by
  have hlt : b.toNat < 8 := by
    by_contra hge
    rw [(opcodeOfByte_none b).2 (by omega)] at h
    cases h
  have hr : b.toNat ∈ List.range 8 := by simpa using hlt
  simp only [List.range, List.range.loop, List.mem_cons, List.not_mem_nil, or_false] at hr
  unfold opcodeOfByte at h
  rcases hr with h0 | h0 | h0 | h0 | h0 | h0 | h0 | h0 <;> rw [h0] at h <;> cases h <;>
    simp only [opcodeByte, byte_eq_of_toNat h0]

@[simp] theorem opcodeOfByte_opcodeByte (op : Opcode) : opcodeOfByte (opcodeByte op) = some op := by
  cases op with
  | nop => rfl
  | halt => rfl
  | twoByte kind => cases kind <;> rfl

theorem decode_nop (rest : List Byte) : decode (0x00#8 :: rest) = .ok (.nop, rest) := rfl

theorem decode_halt (rest : List Byte) : decode (0x04#8 :: rest) = .ok (.halt, rest) := rfl

theorem decode_twoByte (kind : Kind) (k : Byte) (rest : List Byte) :
    decode (opcodeByte (.twoByte kind) :: k :: rest) = .ok (kind.toInstr k, rest) := by
  cases kind <;> rfl

theorem decode_illegal {b : Byte} (h : 8 ≤ b.toNat) (rest : List Byte) :
    decode (b :: rest) = .error (.illegalOpcode b) := by
  simp [decode, (opcodeOfByte_none b).2 h]

/-- What a fetch tick can decode: NOP, HALT, a two-byte instruction with the next byte as its operand, or an illegal
byte. No other decoding error reaches a fetch. -/
theorem decode_fetchBytes_cases (s : State) :
    (memRead s.pc s = 0x00#8 ∧ decode (fetchBytes s) = .ok (.nop, [memRead (s.pc + 1#8) s])) ∨
    (memRead s.pc s = 0x04#8 ∧ decode (fetchBytes s) = .ok (.halt, [memRead (s.pc + 1#8) s])) ∨
    (∃ kind, memRead s.pc s = opcodeByte (.twoByte kind) ∧
      decode (fetchBytes s) = .ok (kind.toInstr (memRead (s.pc + 1#8) s), [])) ∨
    (8 ≤ (memRead s.pc s).toNat ∧ decode (fetchBytes s) = .error (.illegalOpcode (memRead s.pc s))) := by
  unfold fetchBytes
  cases h : opcodeOfByte (memRead s.pc s) with
  | none =>
    have h8 := (opcodeOfByte_none _).1 h
    exact .inr (.inr (.inr ⟨h8, decode_illegal h8 _⟩))
  | some op =>
    have hb := opcodeOfByte_some h
    cases op with
    | nop => exact .inl ⟨hb, by rw [hb]; rfl⟩
    | halt => exact .inr (.inl ⟨hb, by rw [hb]; rfl⟩)
    | twoByte kind => exact .inr (.inr (.inl ⟨kind, hb, by rw [hb]; exact decode_twoByte kind _ _⟩))

end Sys2Proof.Laws
end

