-- ==== Sys2Proof/Laws/Memory.lean ====
section
/-! SUPPORT. The laws of the canonical memory: a read after a write, the canonical form and the capacity are kept by every
memory operation, and memories that read alike are equal. -/

namespace Sys2Proof.Laws

open Sys2Proof Sys2Proof.Machine

theorem fresh_read (a : Nat) : Memory.fresh.read a = Memory.unlisted := rfl

theorem fresh_wf : Memory.fresh.wf = true := rfl

theorem fresh_within (cap : Nat) : Memory.fresh.within cap = true := rfl

theorem wfFrom_cons (lo b : Nat) (u : Byte) (m : Memory) :
    Memory.wfFrom lo ((b, u) :: m) = true ↔ lo ≤ b ∧ u ≠ Memory.unlisted ∧ Memory.wfFrom (b + 1) m = true := by
  simp [Memory.wfFrom, and_assoc]

theorem wfFrom_mono {lo hi : Nat} {m : Memory} (h : Memory.wfFrom hi m = true) (hle : lo ≤ hi) :
    Memory.wfFrom lo m = true := by
  cases m with
  | nil => rfl
  | cons c m =>
    obtain ⟨b, u⟩ := c
    rw [wfFrom_cons] at h ⊢
    exact ⟨by omega, h.2⟩

/-- Below its first address a canonical memory lists nothing. -/
theorem read_below {lo a : Nat} {m : Memory} (h : Memory.wfFrom lo m = true) (ha : a < lo) :
    m.read a = Memory.unlisted := by
  induction m generalizing lo with
  | nil => rfl
  | cons c m ih =>
    obtain ⟨b, u⟩ := c
    rw [wfFrom_cons] at h
    rw [Memory.read, if_neg (by omega)]
    exact ih h.2.2 (by omega)

theorem read_write_from {lo : Nat} {m : Memory} (h : Memory.wfFrom lo m = true) (a c : Nat) (v : Byte) :
    (m.write a v).read c = if c = a then v else m.read c := by
  induction m generalizing lo with
  | nil =>
    by_cases hv : v = Memory.unlisted <;> simp [Memory.write, Memory.read, hv]
  | cons d m ih =>
    obtain ⟨b, u⟩ := d
    rw [wfFrom_cons] at h
    simp only [Memory.write]
    split
    · have hlow : Memory.read ((b, u) :: m) a = Memory.unlisted := by
        rw [Memory.read, if_neg (by omega)]
        exact read_below h.2.2 (by omega)
      split
      · rename_i hv
        split
        · rename_i hc; rw [hc, hlow, hv]
        · rfl
      · rw [Memory.read]
    · split
      · rename_i _ hab
        subst hab
        have hlow : Memory.read m a = Memory.unlisted := read_below h.2.2 (by omega)
        split
        · rename_i hv
          split
          · rename_i hc; rw [hc, hlow, hv]
          · rename_i hc; rw [Memory.read, if_neg hc]
        · by_cases hc : c = a <;> simp [Memory.read, hc]
      · rw [Memory.read, Memory.read, ih h.2.2]
        by_cases hcb : c = b
        · rw [if_pos hcb, if_pos hcb, if_neg (by omega)]
        · rw [if_neg hcb, if_neg hcb]

/-- A read after a write, in a canonical memory: the written byte at its address, every other cell as before. -/
theorem read_write {m : Memory} (h : m.wf = true) (a c : Nat) (v : Byte) :
    (m.write a v).read c = if c = a then v else m.read c := read_write_from h a c v

theorem write_wfFrom {lo : Nat} {m : Memory} (h : Memory.wfFrom lo m = true) {a : Nat} (ha : lo ≤ a) (v : Byte) :
    Memory.wfFrom lo (m.write a v) = true := by
  induction m generalizing lo with
  | nil =>
    by_cases hv : v = Memory.unlisted <;> simp [Memory.write, Memory.wfFrom, hv, ha]
  | cons d m ih =>
    obtain ⟨b, u⟩ := d
    have hm := h
    rw [wfFrom_cons] at h
    simp only [Memory.write]
    split
    · split
      · exact hm
      · rename_i hab hv
        rw [wfFrom_cons, wfFrom_cons]
        exact ⟨ha, hv, by omega, h.2⟩
    · split
      · split
        · exact wfFrom_mono h.2.2 (by omega)
        · rename_i _ hab hv
          subst hab
          rw [wfFrom_cons]
          exact ⟨ha, hv, h.2.2⟩
      · rw [wfFrom_cons]
        exact ⟨h.1, h.2.1, ih h.2.2 (by omega)⟩

/-- A write keeps the canonical form. -/
theorem write_wf {m : Memory} (h : m.wf = true) (a : Nat) (v : Byte) : (m.write a v).wf = true :=
  write_wfFrom h (Nat.zero_le a) v

theorem within_cons (cap b : Nat) (u : Byte) (m : Memory) :
    Memory.within cap ((b, u) :: m) = true ↔ b < cap ∧ Memory.within cap m = true := by
  simp only [Memory.within, List.all_cons, Bool.and_eq_true, decide_eq_true_eq]

/-- A write to an existing cell lists no cell beyond the capacity. -/
theorem write_within {cap : Nat} {m : Memory} (h : m.within cap = true) {a : Nat} (ha : a < cap) (v : Byte) :
    (m.write a v).within cap = true := by
  induction m with
  | nil => by_cases hv : v = Memory.unlisted <;> simp [Memory.write, Memory.within, hv, ha]
  | cons d m ih =>
    obtain ⟨b, u⟩ := d
    have hm := h
    rw [within_cons] at h
    simp only [Memory.write]
    split
    · split
      · exact hm
      · rw [within_cons]; exact ⟨ha, hm⟩
    · split
      · split
        · exact h.2
        · rw [within_cons]; exact ⟨ha, h.2⟩
      · rw [within_cons]; exact ⟨h.1, ih h.2⟩

theorem ext_from {lo : Nat} {m n : Memory} (hm : Memory.wfFrom lo m = true) (hn : Memory.wfFrom lo n = true)
    (h : ∀ a, m.read a = n.read a) : m = n := by
  induction m generalizing lo n with
  | nil =>
    cases n with
    | nil => rfl
    | cons d n =>
      obtain ⟨b, u⟩ := d
      rw [wfFrom_cons] at hn
      have := h b
      simp [Memory.read] at this
      exact absurd this.symm hn.2.1
  | cons c m ih =>
    obtain ⟨b, u⟩ := c
    rw [wfFrom_cons] at hm
    cases n with
    | nil =>
      have := h b
      simp [Memory.read] at this
      exact absurd this hm.2.1
    | cons d n =>
      obtain ⟨b', u'⟩ := d
      rw [wfFrom_cons] at hn
      have hb := h b
      have hb' := h b'
      simp only [Memory.read, if_true] at hb hb'
      rcases Nat.lt_trichotomy b b' with hlt | heq | hgt
      · rw [if_neg (by omega), read_below hn.2.2 (by omega)] at hb
        exact absurd hb hm.2.1
      · subst heq
        simp only [if_true] at hb
        subst hb
        rw [ih hm.2.2 hn.2.2]
        intro a
        by_cases ha : a = b
        · rw [ha, read_below hm.2.2 (by omega), read_below hn.2.2 (by omega)]
        · have := h a
          simpa [Memory.read, ha] using this
      · rw [if_neg (by omega), read_below hm.2.2 (by omega)] at hb'
        exact absurd hb'.symm hn.2.1

/-- Canonical memories that read alike at every address are equal. -/
theorem memory_ext {m n : Memory} (hm : m.wf = true) (hn : n.wf = true) (h : ∀ a, m.read a = n.read a) : m = n :=
  ext_from hm hn h

/-- The two operations that write memory keep the canonical form. -/
theorem memWrite_wf {s : State} (h : s.mem.wf = true) (a v : Byte) : (memWrite a v s).mem.wf = true :=
  write_wf h a.toNat v

theorem operandWrite_wf {s : State} (h : s.mem.wf = true) (k v : Byte) : (operandWrite k v s).mem.wf = true :=
  write_wf h (operandAddress k) v

end Sys2Proof.Laws
end

