-- ==== Sys2Proof/Laws/Events.lean ====
section
/-! SUPPORT. What each host event does. -/

namespace Sys2Proof.Laws

open Sys2Proof Sys2Proof.Machine

@[simp] theorem withMem_mem (m : Memory) (sys : System) : (sys.withMem m).mem = m := by cases sys <;> rfl

@[simp] theorem withMem_self (sys : System) : sys.withMem sys.mem = sys := by cases sys <;> rfl

theorem inCapacity_iff (cfg : Config) (a : Int) : inCapacity cfg a = true ↔ 0 ≤ a ∧ a < cfg.memCapacity := by
  simp [inCapacity]

theorem hostWrite_inside {cfg : Config} {a : Int} (h : inCapacity cfg a = true) (v : Byte) (sys : System) :
    hostWrite cfg a v sys = (sys.withMem (sys.mem.write a.toNat v), .done) := by
  simp [hostWrite, h]

theorem hostWrite_outside {cfg : Config} {a : Int} (h : inCapacity cfg a = false) (v : Byte) (sys : System) :
    hostWrite cfg a v sys = (sys, .rejected) := by
  simp [hostWrite, h]

theorem hostRead_inside {cfg : Config} {a : Int} (h : inCapacity cfg a = true) (sys : System) :
    hostRead cfg a sys = (sys, .byte (sys.mem.read a.toNat)) := by
  simp [hostRead, h]

theorem hostRead_outside {cfg : Config} {a : Int} (h : inCapacity cfg a = false) (sys : System) :
    hostRead cfg a sys = (sys, .rejected) := by
  simp [hostRead, h]

/-- Every event but `Tick` is answered without running the core. -/
theorem handle_wellFormed {cfg : Config} (h : cfg.wellFormed = true) (e : Event) (sys : System) :
    handle cfg e sys =
      match e with
      | .reset => .next (resetSystem sys, .done)
      | .tick => tickSystem cfg sys
      | .hostWrite a v => .next (hostWrite cfg a v sys)
      | .hostRead a => .next (hostRead cfg a sys)
      | .observe => observeSystem sys := by
  cases e <;> simp [handle, h]

end Sys2Proof.Laws
end

