-- ==== Sys2Proof/Laws/State.lean ====
section
/-! SUPPORT. One lemma per field per named update of State, each true by rfl, so that no proof unfolds a record update. -/

namespace Sys2Proof.Laws

open Sys2Proof Sys2Proof.Machine

variable (s : State)

@[simp] theorem setPc_pc (v : Byte) : (setPc v s).pc = v := rfl
@[simp] theorem setPc_acc (v : Byte) : (setPc v s).acc = s.acc := rfl
@[simp] theorem setPc_overflow (v : Byte) : (setPc v s).overflow = s.overflow := rfl
@[simp] theorem setPc_zero (v : Byte) : (setPc v s).zero = s.zero := rfl
@[simp] theorem setPc_error (v : Byte) : (setPc v s).error = s.error := rfl
@[simp] theorem setPc_inflight (v : Byte) : (setPc v s).inflight = s.inflight := rfl
@[simp] theorem setPc_mem (v : Byte) : (setPc v s).mem = s.mem := rfl

@[simp] theorem advancePc_pc (n : Byte) : (advancePc n s).pc = s.pc + n := rfl
@[simp] theorem advancePc_acc (n : Byte) : (advancePc n s).acc = s.acc := rfl
@[simp] theorem advancePc_overflow (n : Byte) : (advancePc n s).overflow = s.overflow := rfl
@[simp] theorem advancePc_zero (n : Byte) : (advancePc n s).zero = s.zero := rfl
@[simp] theorem advancePc_error (n : Byte) : (advancePc n s).error = s.error := rfl
@[simp] theorem advancePc_inflight (n : Byte) : (advancePc n s).inflight = s.inflight := rfl
@[simp] theorem advancePc_mem (n : Byte) : (advancePc n s).mem = s.mem := rfl

@[simp] theorem setAcc_pc (v : Byte) : (setAcc v s).pc = s.pc := rfl
@[simp] theorem setAcc_acc (v : Byte) : (setAcc v s).acc = v := rfl
@[simp] theorem setAcc_overflow (v : Byte) : (setAcc v s).overflow = s.overflow := rfl
@[simp] theorem setAcc_zero (v : Byte) : (setAcc v s).zero = s.zero := rfl
@[simp] theorem setAcc_error (v : Byte) : (setAcc v s).error = s.error := rfl
@[simp] theorem setAcc_inflight (v : Byte) : (setAcc v s).inflight = s.inflight := rfl
@[simp] theorem setAcc_mem (v : Byte) : (setAcc v s).mem = s.mem := rfl

@[simp] theorem setInflight_pc (r : Option Inflight) : (setInflight r s).pc = s.pc := rfl
@[simp] theorem setInflight_acc (r : Option Inflight) : (setInflight r s).acc = s.acc := rfl
@[simp] theorem setInflight_overflow (r : Option Inflight) : (setInflight r s).overflow = s.overflow := rfl
@[simp] theorem setInflight_zero (r : Option Inflight) : (setInflight r s).zero = s.zero := rfl
@[simp] theorem setInflight_error (r : Option Inflight) : (setInflight r s).error = s.error := rfl
@[simp] theorem setInflight_inflight (r : Option Inflight) : (setInflight r s).inflight = r := rfl
@[simp] theorem setInflight_mem (r : Option Inflight) : (setInflight r s).mem = s.mem := rfl

@[simp] theorem setFlags_pc (o z : Bool) : (setFlags o z s).pc = s.pc := rfl
@[simp] theorem setFlags_acc (o z : Bool) : (setFlags o z s).acc = s.acc := rfl
@[simp] theorem setFlags_overflow (o z : Bool) : (setFlags o z s).overflow = o := rfl
@[simp] theorem setFlags_zero (o z : Bool) : (setFlags o z s).zero = z := rfl
@[simp] theorem setFlags_error (o z : Bool) : (setFlags o z s).error = s.error := rfl
@[simp] theorem setFlags_inflight (o z : Bool) : (setFlags o z s).inflight = s.inflight := rfl
@[simp] theorem setFlags_mem (o z : Bool) : (setFlags o z s).mem = s.mem := rfl

@[simp] theorem raiseMachineFault_pc (c : FaultCause) : (raiseMachineFault c s).pc = s.pc := rfl
@[simp] theorem raiseMachineFault_acc (c : FaultCause) : (raiseMachineFault c s).acc = s.acc := rfl
@[simp] theorem raiseMachineFault_overflow (c : FaultCause) : (raiseMachineFault c s).overflow = s.overflow := rfl
@[simp] theorem raiseMachineFault_zero (c : FaultCause) : (raiseMachineFault c s).zero = s.zero := rfl
@[simp] theorem raiseMachineFault_error (c : FaultCause) : (raiseMachineFault c s).error = true := rfl
@[simp] theorem raiseMachineFault_inflight (c : FaultCause) : (raiseMachineFault c s).inflight = s.inflight := rfl
@[simp] theorem raiseMachineFault_mem (c : FaultCause) : (raiseMachineFault c s).mem = s.mem := rfl

@[simp] theorem memWrite_pc (a v : Byte) : (memWrite a v s).pc = s.pc := rfl
@[simp] theorem memWrite_acc (a v : Byte) : (memWrite a v s).acc = s.acc := rfl
@[simp] theorem memWrite_overflow (a v : Byte) : (memWrite a v s).overflow = s.overflow := rfl
@[simp] theorem memWrite_zero (a v : Byte) : (memWrite a v s).zero = s.zero := rfl
@[simp] theorem memWrite_error (a v : Byte) : (memWrite a v s).error = s.error := rfl
@[simp] theorem memWrite_inflight (a v : Byte) : (memWrite a v s).inflight = s.inflight := rfl
@[simp] theorem memWrite_mem (a v : Byte) : (memWrite a v s).mem = s.mem.write a.toNat v := rfl

@[simp] theorem operandWrite_pc (k v : Byte) : (operandWrite k v s).pc = s.pc := rfl
@[simp] theorem operandWrite_acc (k v : Byte) : (operandWrite k v s).acc = s.acc := rfl
@[simp] theorem operandWrite_overflow (k v : Byte) : (operandWrite k v s).overflow = s.overflow := rfl
@[simp] theorem operandWrite_zero (k v : Byte) : (operandWrite k v s).zero = s.zero := rfl
@[simp] theorem operandWrite_error (k v : Byte) : (operandWrite k v s).error = s.error := rfl
@[simp] theorem operandWrite_inflight (k v : Byte) : (operandWrite k v s).inflight = s.inflight := rfl
@[simp] theorem operandWrite_mem (k v : Byte) : (operandWrite k v s).mem = s.mem.write (operandAddress k) v := rfl

@[simp] theorem resetEvent_pc : (resetEvent s).pc = 0#8 := rfl
@[simp] theorem resetEvent_acc : (resetEvent s).acc = 0#8 := rfl
@[simp] theorem resetEvent_overflow : (resetEvent s).overflow = false := rfl
@[simp] theorem resetEvent_zero : (resetEvent s).zero = false := rfl
@[simp] theorem resetEvent_error : (resetEvent s).error = false := rfl
@[simp] theorem resetEvent_inflight : (resetEvent s).inflight = none := rfl
@[simp] theorem resetEvent_mem : (resetEvent s).mem = s.mem := rfl

end Sys2Proof.Laws
end

