-- ==== Sys2Proof/Laws/Exec.lean ====
section
/-! SUPPORT. What each shared operation and each instruction's tick can do, said once: a two-byte instruction is fetched,
pends, or completes, according to the record in flight. -/

namespace Sys2Proof.Laws

open Sys2Proof Sys2Proof.Machine

variable {s : State} {k : Byte}

@[simp] theorem settle_completed (r : Inflight) (t : State) : settle r (.completed t) = setInflight none t := rfl

@[simp] theorem settle_pending (r : Inflight) (t : State) :
    settle r (.pending t) = setInflight (some { r with step := .step1 }) t := rfl

@[simp] theorem idleOperandStep_eq (t : State) : idleOperandStep t = .pending t := rfl

/-- The fetch tick of a two-byte instruction (R82). -/
theorem engineTick_fetch (kind : Kind) (op fin : State → StepReport) (h : s.inflight = none) :
    engineTick kind k op fin s = setInflight (some { kind := kind, step := .step0, operand := k }) s := by
  simp [engineTick, h]

/-- Its operand step (R85). -/
theorem engineTick_step0 (kind : Kind) (op fin : State → StepReport) {r : Inflight} (h : s.inflight = some r)
    (h0 : r.step = .step0) : engineTick kind k op fin s = settle r (op s) := by
  simp [engineTick, h, h0]

/-- Its final step (R86). -/
theorem engineTick_step1 (kind : Kind) (op fin : State → StepReport) {r : Inflight} (h : s.inflight = some r)
    (h1 : r.step = .step1) : engineTick kind k op fin s = settle r (fin s) := by
  simp [engineTick, h, h1]

/-- Everything a tick of a two-byte instruction can do. -/
theorem engineTick_cases (kind : Kind) (op fin : State → StepReport) :
    (s.inflight = none ∧
      engineTick kind k op fin s = setInflight (some { kind := kind, step := .step0, operand := k }) s) ∨
    (∃ r, s.inflight = some r ∧ r.step = .step0 ∧ engineTick kind k op fin s = settle r (op s)) ∨
    (∃ r, s.inflight = some r ∧ r.step = .step1 ∧ engineTick kind k op fin s = settle r (fin s)) := by
  cases h : s.inflight with
  | none => exact .inl ⟨rfl, engineTick_fetch kind op fin h⟩
  | some r =>
    cases h1 : r.step with
    | step0 => exact .inr (.inl ⟨r, rfl, h1, engineTick_step0 kind op fin h h1⟩)
    | step1 => exact .inr (.inr ⟨r, rfl, h1, engineTick_step1 kind op fin h h1⟩)

@[simp] theorem flagsAdd_original (a m : Byte) : flagsAdd .original a m s = s := rfl

@[simp] theorem flagsSub_original (a m : Byte) : flagsSub .original a m s = s := rfl

theorem flagsAdd_arith (a m : Byte) : flagsAdd .arith a m s =
    setFlags (Nat.blt 255 (a.toNat + m.toNat)) ((a.toNat + m.toNat) % 256 == 0) s := rfl

theorem flagsSub_arith (a m : Byte) :
    flagsSub .arith a m s = setFlags (Nat.blt a.toNat m.toNat) (a == m) s := rfl

/-- The flag updates write nothing but the two arithmetic flags. -/
theorem flagsAdd_rest (mode : FlagMode) (a m : Byte) :
    (flagsAdd mode a m s).pc = s.pc ∧ (flagsAdd mode a m s).acc = s.acc ∧ (flagsAdd mode a m s).error = s.error ∧
    (flagsAdd mode a m s).inflight = s.inflight ∧ (flagsAdd mode a m s).mem = s.mem := by
  cases mode <;> exact ⟨rfl, rfl, rfl, rfl, rfl⟩

theorem flagsSub_rest (mode : FlagMode) (a m : Byte) :
    (flagsSub mode a m s).pc = s.pc ∧ (flagsSub mode a m s).acc = s.acc ∧ (flagsSub mode a m s).error = s.error ∧
    (flagsSub mode a m s).inflight = s.inflight ∧ (flagsSub mode a m s).mem = s.mem := by
  cases mode <;> exact ⟨rfl, rfl, rfl, rfl, rfl⟩

/-- The data byte is the memory cell the operand names. -/
theorem operandRead_eq (k : Byte) (s : State) : operandRead k s = s.mem.read k.toNat := rfl

theorem operandAddress_eq (k : Byte) : operandAddress k = k.toNat := rfl

/-- No instruction's tick faults or is refused. -/
theorem execIn_next (cfg : Config) (i : Instr) (s : State) : ∃ t, execIn cfg i s = .next t := by
  cases i <;> exact ⟨_, rfl⟩

/-- The fixed names are the configured machine at the spec's defaults. -/
theorem execIn_config (i : Instr) (s : State) : execIn config i s = exec i s := by cases i <;> rfl

theorem stepIn_config (s : State) : stepIn config s = step s := by
  have h : execIn config = exec := funext fun i => funext fun s => execIn_config i s
  rw [stepIn, step, h, if_pos (by decide)]

end Sys2Proof.Laws
end

