-- ==== Sys2Proof/Laws/PerInstr.lean ====
section
/-! SUPPORT. Facts about an instruction as syntax, one lemma per constructor. -/

namespace Sys2Proof.Laws.EncodedLength

open Sys2Proof

/-- The encoder writes as many bytes as the instruction is long (R60). -/
def Statement (i : Instr) : Prop := (encode i).length = i.length

theorem nop : Statement .nop := rfl
theorem ld (k : Byte) : Statement (.ld k) := rfl
theorem st (k : Byte) : Statement (.st k) := rfl
theorem add (k : Byte) : Statement (.add k) := rfl
theorem halt : Statement .halt := rfl
theorem jmp (k : Byte) : Statement (.jmp k) := rfl
theorem jze (k : Byte) : Statement (.jze k) := rfl
theorem sub (k : Byte) : Statement (.sub k) := rfl

end Sys2Proof.Laws.EncodedLength
end

