-- ==== Sys2Proof/Laws/Tick.lean ====
section
/-! SUPPORT. What a tick can do, whatever runs the instructions (R81). -/

namespace Sys2Proof.Laws

open Sys2Proof Sys2Proof.Machine

variable {run : Instr → State → Host.Outcome State Fault Refusal} {s : State}

theorem tickWith_halted (h : s.error = true) : tickWith run s = .next s := by simp [tickWith, h]

theorem tickWith_fetch (h : s.error = false) (hi : s.inflight = none) : tickWith run s = fetchTick run s := by
  simp [tickWith, h, hi]

theorem tickWith_advance {r : Inflight} (h : s.error = false) (hi : s.inflight = some r) :
    tickWith run s = run r.toInstr s := by
  simp [tickWith, h, hi]

theorem fetchTick_ok {i : Instr} {rest : List Byte} (h : decode (fetchBytes s) = .ok (i, rest)) :
    fetchTick run s = run i s := by
  simp [fetchTick, h]

theorem fetchTick_error {e : DecodeError} (h : decode (fetchBytes s) = .error e) :
    fetchTick run s = .next (raiseMachineFault .illegalOpcode s) := by
  simp [fetchTick, h]

/-- A tick does exactly one of these (R81, R82). -/
theorem tickWith_cases :
    (s.error = true ∧ tickWith run s = .next s) ∨
    (s.error = false ∧ s.inflight = none ∧ memRead s.pc s = 0x00#8 ∧ tickWith run s = run .nop s) ∨
    (s.error = false ∧ s.inflight = none ∧ memRead s.pc s = 0x04#8 ∧ tickWith run s = run .halt s) ∨
    (∃ kind, s.error = false ∧ s.inflight = none ∧ memRead s.pc s = opcodeByte (.twoByte kind) ∧
      tickWith run s = run (kind.toInstr (memRead (s.pc + 1#8) s)) s) ∨
    (s.error = false ∧ s.inflight = none ∧ 8 ≤ (memRead s.pc s).toNat ∧
      tickWith run s = .next (raiseMachineFault .illegalOpcode s)) ∨
    (∃ r, s.error = false ∧ s.inflight = some r ∧ tickWith run s = run r.toInstr s) := by
  cases he : s.error with
  | true => exact .inl ⟨rfl, tickWith_halted he⟩
  | false =>
    cases hi : s.inflight with
    | some r => exact .inr (.inr (.inr (.inr (.inr ⟨r, rfl, rfl, tickWith_advance he hi⟩))))
    | none =>
      rw [tickWith_fetch he hi]
      obtain ⟨hb, hd⟩ | ⟨hb, hd⟩ | ⟨kind, hb, hd⟩ | ⟨hb, hd⟩ := decode_fetchBytes_cases s
      · exact .inr (.inl ⟨rfl, rfl, hb, fetchTick_ok hd⟩)
      · exact .inr (.inr (.inl ⟨rfl, rfl, hb, fetchTick_ok hd⟩))
      · exact .inr (.inr (.inr (.inl ⟨kind, rfl, rfl, hb, fetchTick_ok hd⟩)))
      · exact .inr (.inr (.inr (.inr (.inl ⟨rfl, rfl, hb, fetchTick_error hd⟩))))

/-- Placing an instruction makes the machine ready to fetch and moves no register. -/
theorem placeAtFetch_ready (b : Byte × Byte) (s : State) :
    (placeAtFetch b s).error = false ∧ (placeAtFetch b s).inflight = none ∧ (placeAtFetch b s).pc = s.pc ∧
    (placeAtFetch b s).acc = s.acc := ⟨rfl, rfl, rfl, rfl⟩

/-- The bytes placed for the next fetch keep the memory canonical. -/
theorem placeAtFetch_wf (b : Byte × Byte) {s : State} (h : s.mem.wf = true) : (placeAtFetch b s).mem.wf = true :=
  write_wf (write_wf h _ _) _ _

theorem stepIn_wellFormed {cfg : Config} (h : cfg.wellFormed = true) (s : State) :
    stepIn cfg s = tickWith (execIn cfg) s := by
  simp [stepIn, h]

end Sys2Proof.Laws
end

