-- ==== Sys2Proof/Laws/Safety.lean ====
section
/-! SUPPORT. The small lemmas of the terms claims are stated in: bytes as numbers modulo 256, and runs of ticks. -/

namespace Sys2Proof.Laws

open Sys2Proof Sys2Proof.Machine Sys2Proof.Safety

@[simp] theorem mod256_toNat (n : Nat) : (mod256 n).toNat = n % 256 := by
  simp [mod256]

/-- Moving a byte by one or two is addition modulo 256 (R22). -/
theorem mod256_add (b c : Byte) : mod256 (b.toNat + c.toNat) = b + c := by
  apply BitVec.eq_of_toNat_eq
  simp [BitVec.toNat_add]

theorem mod256_add_one (b : Byte) : mod256 (b.toNat + 1) = b + 1#8 := mod256_add b 1#8

theorem mod256_add_two (b : Byte) : mod256 (b.toNat + 2) = b + 2#8 := mod256_add b 2#8

/-- Subtraction of bytes is the difference modulo 256 (R8, R122). -/
theorem mod256_sub (b c : Byte) : mod256 (b.toNat + 256 - c.toNat) = b - c := by
  apply BitVec.eq_of_toNat_eq
  rw [mod256_toNat, BitVec.toNat_sub]
  have := b.isLt
  have := c.isLt
  omega

/-- The address of the operand byte as a number (R42). -/
theorem next_address (b : Byte) : (b.toNat + 1) % 256 = (b + 1#8).toNat := by
  rw [BitVec.toNat_add]
  rfl

theorem byte_ne_add_one (b : Byte) : b + 1#8 ≠ b := by
  intro h
  have := congrArg BitVec.toNat h
  rw [← next_address] at this
  have := b.isLt
  omega

theorem byte_ne_add_two (b : Byte) : b + 2#8 ≠ b := by
  intro h
  have := congrArg BitVec.toNat h
  rw [← mod256_add_two, mod256_toNat] at this
  have := b.isLt
  omega

@[simp] theorem run_zero (M : Host.Core) (s : M.State) : Host.Core.run M 0 s = .next s := rfl

theorem run_succ {M : Host.Core} {s t : M.State} (n : Nat) (h : M.step s = .next t) :
    Host.Core.run M (n + 1) s = Host.Core.run M n t := by
  simp [Host.Core.run, h]

/-- Runs compose. -/
theorem run_add {M : Host.Core} {s t : M.State} (m n : Nat) (h : Host.Core.run M m s = .next t) :
    Host.Core.run M (m + n) s = Host.Core.run M n t := by
  induction m generalizing s with
  | zero =>
    rw [run_zero] at h
    cases h
    rw [Nat.zero_add]
  | succ m ih =>
    rw [Nat.add_right_comm]
    simp only [Host.Core.run] at h ⊢
    split at h
    · exact ih h
    · cases h
    · cases h

end Sys2Proof.Laws
end

