-- ==== Sys2Proof/Tests/Slice0.lean ====
section
/-! SUPPORT. The model's own tests: the smoke of WellFormed, decoded words written out from R63, one step per test with the
expected values of spec/95_test_vectors.md, and for each obligation with hypotheses a state and operands that meet them. -/

namespace Sys2Proof.Tests

open Sys2Proof Sys2Proof.Machine Sys2Proof.Safety

/-- The next state of an outcome. -/
def nextState (o : Host.Outcome State Fault Refusal) : Option State :=
  match o with
  | .next s => some s
  | .fault _ => none
  | .refused _ => none

/-- A machine ready to fetch at `pc`, with the given cells. -/
def idleAt (pc acc : Byte) (cells : List (Nat × Byte)) : State :=
  { State.reset with pc := pc, acc := acc, mem := cells.foldl (fun m c => m.write c.1 c.2) Memory.fresh }

/-- The same with an instruction in flight. -/
def flying (kind : Kind) (step : StepIndex) (k : Byte) (s : State) : State :=
  { s with inflight := some { kind := kind, step := step, operand := k } }

/-- The configuration with `FLAG_MODE = arith`. -/
def arithConfig : Config := { memCapacity := 8192, flagMode := .arith }

/-! ### WellFormed -/

/-- R43: 256 cells are enough and 255 are refused. -/
theorem test_wellFormed_refuses_small_capacity :
    Config.wellFormed { memCapacity := 256, flagMode := .original } = true ∧
    Config.wellFormed { memCapacity := 255, flagMode := .original } = false := by decide

/-- R64: no operand value is ill-formed, so the check on instructions has no term to refuse. -/
theorem test_wellFormed_every_instruction (i : Instr) : i.wellFormed = true := by cases i <;> rfl

/-! ### Decoding: words written out bit by bit from R63 -/

theorem test_decode_nop : decode [0b00000000#8, 0x2A#8] = .ok (.nop, [0x2A#8]) := by decide
theorem test_decode_ld : decode [0b00000001#8, 0b00101010#8] = .ok (.ld 0x2A#8, []) := by decide
theorem test_decode_st : decode [0b00000010#8, 0b10000001#8] = .ok (.st 0x81#8, []) := by decide
theorem test_decode_add : decode [0b00000011#8, 0b11111111#8] = .ok (.add 0xFF#8, []) := by decide
theorem test_decode_halt : decode [0b00000100#8, 0x2A#8] = .ok (.halt, [0x2A#8]) := by decide
theorem test_decode_jmp : decode [0b00000101#8, 0b00000101#8] = .ok (.jmp 0x05#8, []) := by decide
theorem test_decode_jze : decode [0b00000110#8, 0b00110000#8] = .ok (.jze 0x30#8, []) := by decide
theorem test_decode_sub : decode [0b00000111#8, 0b00110000#8] = .ok (.sub 0x30#8, []) := by decide

/-- 95_test_vectors.md section 4: none of these aliases an opcode. -/
theorem test_decode_illegal :
    (∀ b ∈ [0x08#8, 0x0F#8, 0x10#8, 0x80#8, 0x81#8, 0xFF#8], decode [b, 0x00#8] = .error (.illegalOpcode b)) := by decide

/-- Bytes too few for an instruction are rejected by name. -/
theorem test_decode_short :
    decode [] = .error .missingOpcode ∧ decode [0x01#8] = .error (.missingOperand 0x01#8) := by decide

/-- R71: bit 0 of the table's number is bit 0 of the first byte. -/
theorem test_table_word :
    decodeTableWord 16 0x2A01 = some (.ld 0x2A#8) ∧ decodeTableWord 8 0x01 = some (.ld 0x00#8) ∧
    decodeTableWord 8 0x04 = some .halt ∧ decodeTableWord 16 0x0108 = none := by decide

/-- R69: the listing form. -/
theorem test_listing : (Instr.ld 0x30#8).listing = "LD 48" ∧ Instr.halt.listing = "HALT" := by decide

/-! ### One step each -/

/-- N1: NOP at 255. -/
theorem test_nop_wraps : (nextState (step (idleAt 255#8 7#8 []))).map (fun t => (t.pc, t.acc)) = some (0x00#8, 7#8) := by
  decide

/-- X3, tick 1: the fetch tick captures the operand and changes nothing else. -/
theorem test_ld_fetch : nextState (step (idleAt 0#8 0#8 [(0, 0x01#8), (1, 0x02#8), (2, 42#8)])) =
    some (flying .ld .step0 0x02#8 (idleAt 0#8 0#8 [(0, 0x01#8), (1, 0x02#8), (2, 42#8)])) := by decide

/-- X3, tick 3. -/
theorem test_ld_final : (nextState (step (flying .ld .step1 0x02#8 (idleAt 0#8 0#8 [(2, 42#8)])))).map
    (fun t => (t.acc, t.pc, t.inflight)) = some (42#8, 2#8, none) := by decide

/-- L4, tick 1: the operand byte of an instruction at 255 is at 0, not at 256. -/
theorem test_fetch_wraps : (nextState (step (idleAt 255#8 0#8 [(255, 0x01#8), (0, 0x10#8), (256, 0x20#8)]))).map
    (·.inflight) = some (some { kind := .ld, step := .step0, operand := 0x10#8 }) := by decide

/-- S1, tick 3: a store onto its own operand byte. -/
theorem test_st_final : (nextState (step (flying .st .step1 0x41#8
    (idleAt 0x40#8 0x99#8 [(0x40, 0x02#8), (0x41, 0x41#8)])))).map
    (fun t => (t.mem, t.pc, t.acc)) = some ([(0x40, 0x02#8), (0x41, 0x99#8)], 0x42#8, 0x99#8) := by decide

/-- S3, tick 3: a store of 0 removes the entry, so that equal memories are equal data. -/
theorem test_st_zero : (nextState (step (flying .st .step1 0x40#8
    (idleAt 0x40#8 0x00#8 [(0x40, 0x02#8), (0x41, 0x40#8)])))).map (·.mem) = some [(0x41, 0x40#8)] := by decide

/-- A1: 200 + 100, in both modes. -/
theorem test_add_wraps :
    (nextState (step (flying .add .step1 0x30#8 (idleAt 0#8 200#8 [(0x30, 100#8)])))).map
      (fun t => (t.acc, t.pc, t.overflow, t.zero)) = some (44#8, 2#8, false, false) ∧
    (nextState (stepIn arithConfig (flying .add .step1 0x30#8 (idleAt 0#8 200#8 [(0x30, 100#8)])))).map
      (fun t => (t.acc, t.pc, t.overflow, t.zero)) = some (44#8, 2#8, true, false) := by decide

/-- A5: 128 + 128. -/
theorem test_add_zero :
    (nextState (stepIn arithConfig (flying .add .step1 0x30#8 (idleAt 0#8 128#8 [(0x30, 128#8)])))).map
      (fun t => (t.acc, t.overflow, t.zero)) = some (0#8, true, true) := by decide

/-- B2: 5 - 10, in both modes. -/
theorem test_sub_wraps :
    (nextState (step (flying .sub .step1 0x30#8 (idleAt 0#8 5#8 [(0x30, 10#8)])))).map
      (fun t => (t.acc, t.pc, t.overflow, t.zero)) = some (251#8, 2#8, false, false) ∧
    (nextState (stepIn arithConfig (flying .sub .step1 0x30#8 (idleAt 0#8 5#8 [(0x30, 10#8)])))).map
      (fun t => (t.acc, t.pc, t.overflow, t.zero)) = some (251#8, 2#8, true, false) := by decide

/-- B3: 42 - 42. -/
theorem test_sub_zero :
    (nextState (stepIn arithConfig (flying .sub .step1 0x30#8 (idleAt 0#8 42#8 [(0x30, 42#8)])))).map
      (fun t => (t.acc, t.overflow, t.zero)) = some (0#8, false, true) := by decide

/-- X6, tick 3. -/
theorem test_jmp_final : (nextState (step (flying .jmp .step1 0x30#8 (idleAt 0#8 0#8 [])))).map
    (fun t => (t.pc, t.acc, t.inflight)) = some (0x30#8, 0#8, none) := by decide

/-- Z5, tick 2: not taken at 255. -/
theorem test_jze_not_taken : (nextState (step (flying .jze .step0 0x30#8 (idleAt 255#8 7#8 [])))).map
    (fun t => (t.pc, t.acc, t.inflight)) = some (0x01#8, 7#8, none) := by decide

/-- Z7 and Z8, tick 2: the `zero` flag is not consulted. -/
theorem test_jze_ignores_the_flag :
    (nextState (stepIn arithConfig (flying .jze .step0 0x30#8 (idleAt 0#8 0#8 [])))).map (fun t => (t.pc, t.inflight)) =
      some (0#8, some { kind := .jze, step := .step1, operand := 0x30#8 }) ∧
    (nextState (stepIn arithConfig (flying .jze .step0 0x30#8 { idleAt 0#8 5#8 [] with zero := true }))).map
      (fun t => (t.pc, t.zero, t.inflight)) = some (2#8, true, none) := by decide

/-- H1, tick 1. -/
theorem test_halt : nextState (step (idleAt 0x33#8 0x12#8 [(0x33, 0x04#8)])) =
    some { idleAt 0x33#8 0x12#8 [(0x33, 0x04#8)] with error := true } := by decide

/-- I1 to I5: the illegal byte faults with `pc` at it; the next byte is not captured. -/
theorem test_illegal : ∀ b ∈ [0x08#8, 0x10#8, 0x80#8, 0xFF#8, 0x2A#8],
    nextState (step (idleAt 0x10#8 3#8 [(0x10, b), (0x11, 0x55#8)])) =
      some { idleAt 0x10#8 3#8 [(0x10, b), (0x11, 0x55#8)] with error := true } := by decide

/-- Log entry 1: a placed instruction is the one the first tick after reset runs. -/
theorem test_placed_word :
    nextState (step (State.reset.withFetchWord 16 0x3001)) =
      nextState (exec (.ld 0x30#8) (State.reset.withFetchWord 16 0x3001)) ∧
    (nextState (step (State.reset.withFetchWord 8 0x04))).map (·.error) = some true := by decide

/-! ### The host -/

/-- HZ7: writes at the edge of the capacity. -/
theorem test_host_edge :
    hostWrite config 8192 1#8 System.powerOn = (System.powerOn, .rejected) ∧
    hostRead config (-1) System.powerOn = (System.powerOn, .rejected) ∧
    hostWrite config 8191 0x7E#8 System.powerOn = (.constructed [(8191, 0x7E#8)], .done) := by decide

/-- HZ5, after its second tick: `Reset` discards the store. -/
theorem test_reset_mid_instruction :
    resetSystem (.live (flying .st .step1 0x10#8 (idleAt 0#8 5#8 [(0, 0x02#8), (1, 0x10#8), (0x10, 0xAA#8)]))) =
      .live (idleAt 0#8 0#8 [(0, 0x02#8), (1, 0x10#8), (0x10, 0xAA#8)]) := by decide

/-! ### Witnesses: for each obligation with hypotheses, a state and operands that meet them, clause by clause -/

/-- Idle with an opcode byte and an operand byte at 254 and 255. -/
abbrev fetching (op k : Byte) : State := idleAt 254#8 9#8 [(254, op), (255, k)]

/-- A run's shared hypotheses: well-formed at the smallest capacity, in both modes. -/
theorem witness_wellFormed_configuration :
    config.wellFormed = true ∧ arithConfig.wellFormed = true ∧
    Config.wellFormed { memCapacity := 256, flagMode := .arith } = true := by decide

theorem witness_ResetGivesTheRuleValues : config.wellFormed = true := by decide

theorem witness_NothingRunsBeforeTheFirstReset : config.wellFormed = true := by decide

theorem witness_ObserveShowsTheRegistersOnly : arithConfig.wellFormed = true := by decide

theorem witness_EveryTickReturnsNothing : arithConfig.wellFormed = true := by decide

theorem witness_HostAccessIsCheckedAgainstTheCapacity :
    config.wellFormed = true ∧ System.powerOn.mem.wf = true ∧
    ((0 : Int) ≤ 0 ∧ (0 : Int) < config.memCapacity) ∧ ((0 : Int) ≤ 8191 ∧ (8191 : Int) < config.memCapacity) ∧
    ¬ ((0 : Int) ≤ 8192 ∧ (8192 : Int) < config.memCapacity) ∧ ¬ ((0 : Int) ≤ -1 ∧ (-1 : Int) < config.memCapacity) := by
  decide

theorem witness_OpcodeMapOfRule63 : 0x08 ≤ (0x08#8).toNat ∧ 0x08 ≤ (0xFF#8).toNat ∧ (0x07#8).toNat < 0x08 := by decide

theorem witness_LengthIsDecidedByTheOpcodeByte :
    decode [0x04#8] = .ok (.halt, []) ∧ decode [0x07#8, 0xFF#8, 0x00#8] = .ok (.sub 0xFF#8, [0x00#8]) := by decide

theorem witness_StepRunsTheCurrentInstruction :
    ((fetching 0x01#8 0xFF#8).error = false ∧ (fetching 0x01#8 0xFF#8).inflight = none ∧
      (Instr.ld 0xFF#8).wellFormed = true ∧ decode (fetchBytes (fetching 0x01#8 0xFF#8)) = .ok (.ld 0xFF#8, [])) ∧
    ((flying .sub .step1 0x00#8 State.reset).error = false ∧ (flying .sub .step1 0x00#8 State.reset).inflight =
      some { kind := .sub, step := .step1, operand := 0x00#8 }) := by decide

theorem witness_PlacedWordRunsNext :
    State.reset.mem.wf = true ∧ decodeTableWord 8 0x00 = some .nop ∧ decodeTableWord 16 0xFF07 = some (.sub 0xFF#8) := by
  decide

/-- The hypothesis on the state, and an event other than `Reset` that is answered. -/
theorem witness_HaltedUntilReset :
    { State.reset with error := true }.error = true ∧ Event.hostWrite 0 0x00#8 ≠ .reset ∧ Event.tick ≠ .reset ∧
    handle config (.hostWrite 0 0x00#8) (.live { State.reset with error := true }) =
      .next (.live { State.reset with error := true }, .done) := ⟨rfl, by decide, by decide, rfl⟩

theorem witness_FetchTickOfRule82 :
    (∀ op ∈ [0x00#8, 0x01#8, 0x02#8, 0x03#8, 0x04#8, 0x05#8, 0x06#8, 0x07#8, 0x08#8, 0xFF#8],
      (fetching op 0x30#8).error = false ∧ (fetching op 0x30#8).inflight = none ∧
      memRead (fetching op 0x30#8).pc (fetching op 0x30#8) = op) := by decide

theorem witness_IllegalOpcodeByteFaults :
    (fetching 0x08#8 0x30#8).error = false ∧ (fetching 0x08#8 0x30#8).inflight = none ∧
    0x08 ≤ (memRead (fetching 0x08#8 0x30#8).pc (fetching 0x08#8 0x30#8)).toNat := by decide

theorem witness_OperandStepOfRule85 :
    (∀ kind ∈ [Kind.ld, .st, .add, .sub, .jmp], kind ≠ .jze ∧ (flying kind .step0 0xFF#8 State.reset).error = false ∧
      (flying kind .step0 0xFF#8 State.reset).inflight = some { kind := kind, step := .step0, operand := 0xFF#8 }) ∧
    ((flying .jze .step0 0xFF#8 (idleAt 255#8 1#8 [])).error = false ∧
      (flying .jze .step0 0xFF#8 (idleAt 255#8 1#8 [])).acc ≠ 0#8) ∧
    (flying .jze .step0 0xFF#8 (idleAt 255#8 0#8 [])).acc = 0#8 := by decide

theorem witness_FinalStepOfRule86 :
    ∀ kind ∈ [Kind.ld, .st, .add, .sub, .jmp, .jze], (flying kind .step1 0xFF#8 State.reset).error = false ∧
      (flying kind .step1 0xFF#8 State.reset).inflight = some { kind := kind, step := .step1, operand := 0xFF#8 } := by
  decide

theorem witness_TickIsTheFunctionOfRule90 : config.wellFormed = true ∧ arithConfig.wellFormed = true := by decide

theorem witness_EveryTickMakesProgress : config.wellFormed = true ∧ State.reset.error = false := by decide

theorem witness_EffectIsVisibleAtTheLastTickOnly :
    config.wellFormed = true ∧ (fetching 0x02#8 0xFF#8).error = false ∧ (fetching 0x02#8 0xFF#8).inflight = none ∧
    decode (fetchBytes (fetching 0x02#8 0xFF#8)) = .ok (.st 0xFF#8, []) ∧
    0 < 2 ∧ 2 < ticks (.st 0xFF#8) (fetching 0x02#8 0xFF#8) := by decide

theorem witness_TickMachineRefinesInstructionMachine :
    config.wellFormed = true ∧ (fetching 0x06#8 0x30#8).inflight = none ∧
    (isaRun config.flagMode 2 (fetching 0x06#8 0x30#8)).1 = 3 := by decide

/-- Either step of an LD, and the operand step of a JZE not taken and of one taken. -/
theorem witness_InFlightInstructionRunsToCompletion :
    config.wellFormed = true ∧ arithConfig.wellFormed = true ∧
    (∀ kind ∈ [Kind.ld, .jze], ∀ st ∈ [StepIndex.step0, .step1], ∀ acc ∈ [0#8, 1#8],
      (flying kind st 0xFF#8 (idleAt 255#8 acc [])).error = false ∧
      (flying kind st 0xFF#8 (idleAt 255#8 acc [])).inflight = some { kind := kind, step := st, operand := 0xFF#8 } ∧
      (flying kind st 0xFF#8 (idleAt 255#8 acc [])).acc = acc) := by decide

/-- A NOP, a completing LD and a completing JMP each move `pc`. -/
theorem witness_PcMovesOnlyAtCompletion :
    ∀ s ∈ [State.reset, flying .ld .step1 0xFF#8 State.reset, flying .jmp .step1 0x30#8 State.reset],
      ∃ t, stepIn config s = .next t ∧ t.pc ≠ s.pc := by
  intro s hs
  simp only [List.mem_cons, List.not_mem_nil, or_false] at hs
  rcases hs with rfl | rfl | rfl <;> exact ⟨_, rfl, by decide⟩

/-- A tick that faults, one that does not, and an event other than a tick. -/
theorem witness_FaultHasTwoCausesAndOneEffect :
    (∃ t, stepIn config (fetching 0x04#8 0x00#8) = .next t ∧ t.error = true) ∧
    (∃ t, stepIn config (fetching 0x07#8 0x00#8) = .next t ∧ t.error = false) ∧
    (fetching 0x04#8 0x00#8).error = false ∧ (fetching 0x07#8 0x00#8).error = false ∧
    (∃ t r, Event.reset ≠ .tick ∧ handle config .reset (.live State.reset) = .next (.live t, r) ∧
      State.reset.error = false) :=
  ⟨⟨_, rfl, by decide⟩, ⟨_, rfl, by decide⟩, rfl, rfl, ⟨_, _, by decide, rfl, rfl⟩⟩

/-- A HALT that ends a run in one tick. -/
theorem witness_EndedRunKeepsItsFinalState :
    config.wellFormed = true ∧ ∃ t, Host.Core.run (coreIn config) 1 (fetching 0x04#8 0x00#8) = .next t ∧ Ended t :=
  ⟨by decide, ⟨_, rfl, by decide⟩⟩

theorem witness_FaultCauseIsReadFromMemory :
    ∀ op ∈ [0x04#8, 0x08#8, 0xFF#8], ∃ t, stepIn config (fetching op 0x00#8) = .next t ∧
      (fetching op 0x00#8).error = false ∧ t.error = true := by
  intro op hop
  simp only [List.mem_cons, List.not_mem_nil, or_false] at hop
  rcases hop with rfl | rfl | rfl <;> exact ⟨_, rfl, rfl, by decide⟩

theorem witness_ReadReturnsTheLastWrite : (idleAt 0#8 0#8 [(255, 0x01#8), (0, 0x02#8)]).mem.wf = true := by decide

theorem witness_AccessTableOfRule48 :
    { State.reset with error := true }.error = true ∧
    (∀ op ∈ [0x00#8, 0x01#8, 0x02#8, 0x03#8, 0x04#8, 0x05#8, 0x06#8, 0x07#8, 0x08#8],
      (fetching op 0x30#8).error = false ∧ (fetching op 0x30#8).inflight = none ∧
      memRead (fetching op 0x30#8).pc (fetching op 0x30#8) = op) ∧
    (∀ kind ∈ [Kind.ld, .st, .add, .sub, .jmp, .jze], ∀ st ∈ [StepIndex.step0, .step1],
      (flying kind st 0xFF#8 State.reset).error = false ∧
      (flying kind st 0xFF#8 State.reset).inflight = some { kind := kind, step := st, operand := 0xFF#8 }) := by decide

/-- A completing ST, an address it does not name, and the one it does. -/
theorem witness_TickWritesOnlyItsWriteAccess :
    (flying .st .step1 0xFF#8 State.reset).mem.wf = true ∧
    (∃ t, stepIn config (flying .st .step1 0xFF#8 State.reset) = .next t) ∧
    tickAccesses (flying .st .step1 0xFF#8 State.reset) = [.write 0xFF#8] ∧ (256 : Nat) ≠ (0xFF#8).toNat :=
  ⟨rfl, ⟨_, rfl⟩, by decide, by decide⟩

/-- A completing ADD, and another memory that agrees with the first on the one cell the tick reads. -/
theorem witness_TickDependsOnlyOnItsReads :
    config.wellFormed = true ∧ (flying .add .step1 0x30#8 (idleAt 0#8 1#8 [(0x30, 7#8)])).mem.wf = true ∧
    Memory.wf [(0x30, 7#8), (0x31, 8#8)] = true ∧
    tickAccesses (flying .add .step1 0x30#8 (idleAt 0#8 1#8 [(0x30, 7#8)])) = [.read 0x30#8] ∧
    Memory.read [(0x30, 7#8), (0x31, 8#8)] (0x30#8).toNat =
      (flying .add .step1 0x30#8 (idleAt 0#8 1#8 [(0x30, 7#8)])).mem.read (0x30#8).toNat := by decide

/-- A capacity below and one at the bound; an access; and two memories that differ from cell 256 up only. -/
theorem witness_CoreReachesCellsBelow256Only :
    Config.memCapacity { memCapacity := 255, flagMode := .original } < 256 ∧ 256 ≤ arithConfig.memCapacity ∧
    Access.read 0xFF#8 ∈ tickAccesses (idleAt 0xFF#8 0#8 []) ∧
    (idleAt 0xFF#8 0#8 []).mem.wf = true ∧ Memory.wf [(256, 9#8)] = true ∧
    (∀ a, a < 256 → Memory.read [(256, 9#8)] a = (idleAt 0xFF#8 0#8 []).mem.read a) :=
  ⟨by decide, by decide, by decide, by decide, by decide, fun a ha => by
    rw [Memory.read, if_neg (by omega)]; rfl⟩

/-- A store of HALT onto the next instruction (S2). -/
theorem witness_FetchSeesTheStoreBeforeIt :
    (flying .st .step1 0x42#8 (idleAt 0x40#8 0x04#8 [])).mem.wf = true ∧
    (flying .st .step1 0x42#8 (idleAt 0x40#8 0x04#8 [])).error = false ∧
    (flying .st .step1 0x42#8 (idleAt 0x40#8 0x04#8 [])).inflight =
      some { kind := .st, step := .step1, operand := 0x42#8 } := by decide

/-- Every opcode of the statement; for JZE an accumulator of 0. -/
theorem witness_OperandIsCapturedAndDataIsReadLate :
    Memory.wf [(0x10, 7#8)] = true ∧
    (∀ op ∈ [0x01#8, 0x02#8, 0x03#8, 0x05#8, 0x06#8, 0x07#8],
      (idleAt 254#8 0#8 [(254, op), (255, 0x10#8)]).error = false ∧
      (idleAt 254#8 0#8 [(254, op), (255, 0x10#8)]).inflight = none ∧
      memRead 254#8 (idleAt 254#8 0#8 [(254, op), (255, 0x10#8)]) = op ∧
      memRead 255#8 (idleAt 254#8 0#8 [(254, op), (255, 0x10#8)]) = 0x10#8 ∧
      (idleAt 254#8 0#8 [(254, op), (255, 0x10#8)]).acc = 0#8) := by decide

/-- After one tick of an ST. -/
theorem witness_ResetDiscardsTheInstructionWithoutTrace :
    config.wellFormed = true ∧ (fetching 0x02#8 0x10#8).error = false ∧ (fetching 0x02#8 0x10#8).inflight = none ∧
    decode (fetchBytes (fetching 0x02#8 0x10#8)) = .ok (.st 0x10#8, []) ∧
    1 < ticks (.st 0x10#8) (fetching 0x02#8 0x10#8) ∧
    ∃ t, Host.Core.run (coreIn config) 1 (fetching 0x02#8 0x10#8) = .next t :=
  ⟨by decide, rfl, rfl, by decide, by decide, ⟨_, rfl⟩⟩

theorem witness_NopOfRule100 :
    (idleAt 255#8 0#8 []).error = false ∧ (idleAt 255#8 0#8 []).inflight = none ∧
    memRead (idleAt 255#8 0#8 []).pc (idleAt 255#8 0#8 []) = 0x00#8 := by decide

theorem witness_HaltOfRule140 :
    (idleAt 255#8 0#8 [(255, 0x04#8)]).error = false ∧ (idleAt 255#8 0#8 [(255, 0x04#8)]).inflight = none ∧
    memRead (idleAt 255#8 0#8 [(255, 0x04#8)]).pc (idleAt 255#8 0#8 [(255, 0x04#8)]) = 0x04#8 := by decide

/-- The three ticks of a two-byte instruction: its fetch tick, its operand step, its final step. -/
abbrev threeTicks (kind : Kind) (s : State) : Prop :=
  (s.error = false ∧ s.mem.wf = true ∧ s.inflight = none) ∧
  ((flying kind .step0 0xFF#8 s).error = false ∧ (flying kind .step0 0xFF#8 s).mem.wf = true ∧
    (flying kind .step0 0xFF#8 s).inflight = some { kind := kind, step := .step0, operand := 0xFF#8 }) ∧
  ((flying kind .step1 0xFF#8 s).error = false ∧ (flying kind .step1 0xFF#8 s).mem.wf = true ∧
    (flying kind .step1 0xFF#8 s).inflight = some { kind := kind, step := .step1, operand := 0xFF#8 })

theorem witness_LdOfRule110 : threeTicks .ld (fetching 0x01#8 0xFF#8) := by decide
theorem witness_StOfRule111 : threeTicks .st (fetching 0x02#8 0xFF#8) := by decide
theorem witness_AddOfRule120 : threeTicks .add (fetching 0x03#8 0xFF#8) := by decide
theorem witness_SubOfRule121 : threeTicks .sub (fetching 0x07#8 0xFF#8) := by decide
theorem witness_JmpOfRule130 : threeTicks .jmp (fetching 0x05#8 0xFF#8) := by decide

/-- JZE with an accumulator other than 0 and with 0. -/
theorem witness_JzeOfRule131 :
    threeTicks .jze (fetching 0x06#8 0xFF#8) ∧ (fetching 0x06#8 0xFF#8).acc.toNat ≠ 0 ∧
    threeTicks .jze (idleAt 254#8 0#8 []) ∧ (idleAt 254#8 0#8 []).acc.toNat = 0 := by decide

/-- 200 + 100 against 44 - 100, which undoes it, and 200 + 156 against 200 - 100. -/
theorem witness_ArithmeticIsModulo256 :
    (flying .add .step1 0x30#8 (idleAt 0#8 200#8 [(0x30, 100#8)])).inflight =
      some { kind := .add, step := .step1, operand := 0x30#8 } ∧
    (flying .sub .step1 0x30#8 (idleAt 0#8 44#8 [(0x30, 100#8)])).inflight =
      some { kind := .sub, step := .step1, operand := 0x30#8 } ∧
    (execIn config (.add 0x30#8) (flying .add .step1 0x30#8 (idleAt 0#8 100#8 [(0x30, 200#8)])) =
      .next (idleAt 2#8 44#8 [(0x30, 200#8)])) ∧
    ((idleAt 0#8 200#8 [(0x30, 156#8)]).mem.read 0x30).toNat = 256 - (100#8).toNat ∧ (100#8).toNat ≠ 0 :=
  ⟨rfl, rfl, rfl, by decide, by decide⟩

/-- The mode, an ADD and a SUB at their final step, and a tick that changes a flag. -/
theorem witness_ArithModeFlagsOfRule123 :
    arithConfig.flagMode = .arith ∧
    (flying .add .step1 0xFF#8 State.reset).inflight = some { kind := .add, step := .step1, operand := 0xFF#8 } ∧
    (flying .sub .step1 0xFF#8 State.reset).inflight = some { kind := .sub, step := .step1, operand := 0xFF#8 } ∧
    ∃ t, execIn arithConfig (.add 0xFF#8) (flying .add .step1 0xFF#8 State.reset) = .next t ∧
      (t.overflow, t.zero) ≠ (State.reset.overflow, State.reset.zero) :=
  ⟨rfl, rfl, rfl, ⟨_, rfl, by decide⟩⟩

theorem witness_OriginalModeKeepsTheFlagsUnread :
    config.flagMode = .original ∧ config.wellFormed = true ∧ arithConfig.wellFormed = true ∧
    (∃ t, stepIn config (flying .add .step1 0xFF#8 { State.reset with overflow := true }) = .next t ∧ t.overflow = true) ∧
    ∃ t, stepIn arithConfig (flying .add .step1 0xFF#8 State.reset) = .next t ∧
      stepIn arithConfig (flying .add .step1 0xFF#8 { State.reset with overflow := true }) = .next t :=
  ⟨rfl, by decide, by decide, ⟨_, rfl, rfl⟩, ⟨_, rfl, rfl⟩⟩

/-- A completing LD that changes the accumulator, and a HALT, which changes `error`. -/
theorem witness_FrameOfTheNonStoringInstructions :
    (∀ k, Instr.ld 0x02#8 ≠ .st k) ∧
    (∃ t, exec (.ld 0x02#8) (flying .ld .step1 0x02#8 (idleAt 0#8 0#8 [(2, 42#8)])) = .next t ∧
      t.acc ≠ (idleAt 0#8 0#8 [(2, 42#8)]).acc) ∧
    (∀ k, Instr.halt ≠ .st k) ∧ (∃ t, exec .halt State.reset = .next t ∧ t.error ≠ State.reset.error) :=
  ⟨by simp, ⟨_, rfl, by decide⟩, by simp, ⟨_, rfl, by decide⟩⟩

/-- A completing ST with an address it does not store to, and an ST in its operand step. -/
theorem witness_FrameOfSt :
    (flying .st .step1 0xFF#8 State.reset).mem.wf = true ∧
    (∃ t, exec (.st 0xFF#8) (flying .st .step1 0xFF#8 State.reset) = .next t) ∧ 256 ≠ operandAddress 0xFF#8 ∧
    (∃ t, exec (.st 0xFF#8) (flying .st .step0 0xFF#8 State.reset) = .next t) ∧
    (∀ r, (flying .st .step0 0xFF#8 State.reset).inflight = some r → r.step = .step0) :=
  ⟨rfl, ⟨_, rfl⟩, by decide, ⟨_, rfl⟩, fun r h => by cases h; rfl⟩

/-- A state in the middle of an LD that meets the invariant. -/
theorem meets_inv : Inv config (flying .ld .step1 0x02#8 (idleAt 4#8 7#8 [(2, 42#8), (8191, 1#8)])) where
  mem_wf := by decide
  mem_within := by decide
  halted_empty := by intro h; cases h
  reached := by intro k h; cases h
  flags_original := fun _ => ⟨rfl, rfl⟩

theorem witness_LogicalStatesOfRule29 :
    Inv config (flying .ld .step1 0x02#8 (idleAt 4#8 7#8 [(2, 42#8), (8191, 1#8)])) := meets_inv

theorem witness_TickKeepsTheInvariant :
    Inv config (flying .ld .step1 0x02#8 (idleAt 4#8 7#8 [(2, 42#8), (8191, 1#8)])) ∧
    ∃ t, step (flying .ld .step1 0x02#8 (idleAt 4#8 7#8 [(2, 42#8), (8191, 1#8)])) = .next t ∧
      stepIn config (flying .ld .step1 0x02#8 (idleAt 4#8 7#8 [(2, 42#8), (8191, 1#8)])) = .next t :=
  ⟨meets_inv, ⟨_, rfl, rfl⟩⟩

theorem witness_EventsKeepTheInvariant :
    config.wellFormed = true ∧
    SystemInv config (.live (flying .ld .step1 0x02#8 (idleAt 4#8 7#8 [(2, 42#8), (8191, 1#8)]))) ∧
    ∃ sys rs, handleAll config [.hostWrite 2 0x0B#8, .reset]
      (.live (flying .ld .step1 0x02#8 (idleAt 4#8 7#8 [(2, 42#8), (8191, 1#8)]))) = .next (sys, rs) :=
  ⟨by decide, meets_inv, ⟨_, _, rfl⟩⟩

end Sys2Proof.Tests
end

/-! The ticks of the machine, said once for every later proof: what a final step does to each field, what a tick of a
two-byte instruction can do, and what a `Tick` can do. -/

namespace Sys2Proof.Proofs

open Sys2Proof Sys2Proof.Machine Sys2Proof.Laws

section FinalStep

variable (mode : FlagMode) (kind : Kind) (k : Byte) (s : State)

/-- The final step of a two-byte instruction (R86) in the model's own operations, less the removal of the record. -/
def finalEffect : State :=
  match kind with
  | .ld => advancePc 2#8 (setAcc (operandRead k s) s)
  | .st => advancePc 2#8 (operandWrite k s.acc s)
  | .add => advancePc 2#8 (setAcc (s.acc + operandRead k s) (flagsAdd mode s.acc (operandRead k s) s))
  | .sub => advancePc 2#8 (setAcc (s.acc - operandRead k s) (flagsSub mode s.acc (operandRead k s) s))
  | .jmp => setPc k s
  | .jze => setPc k s

@[simp] theorem finalEffect_error : (finalEffect mode kind k s).error = s.error := by
  cases kind <;> simp [finalEffect, flagsAdd_rest, flagsSub_rest]

theorem finalEffect_pc :
    (finalEffect mode kind k s).pc = s.pc + 2#8 ∨
      ((finalEffect mode kind k s).pc = k ∧ (kind = .jmp ∨ kind = .jze)) := by
  cases kind <;> simp [finalEffect, flagsAdd_rest, flagsSub_rest]

/-- Only ST writes memory, and only the cell its operand names (R48). -/
theorem finalEffect_mem :
    (finalEffect mode kind k s).mem = if kind = .st then s.mem.write k.toNat s.acc else s.mem := by
  cases kind <;> simp [finalEffect, flagsAdd_rest, flagsSub_rest, operandAddress_eq]

/-- Only LD, ADD and SUB write the accumulator (R21). -/
theorem acc_writer_of_finalEffect (h : (finalEffect mode kind k s).acc ≠ s.acc) :
    kind = .ld ∨ kind = .add ∨ kind = .sub := by
  cases kind <;> simp [finalEffect] at h ⊢

/-- In `FLAG_MODE = original` no final step writes a flag (R24, R25). -/
theorem finalEffect_flags_original :
    (finalEffect .original kind k s).overflow = s.overflow ∧ (finalEffect .original kind k s).zero = s.zero := by
  cases kind <;> simp [finalEffect]

/-- A final step reads neither flag: it either passes both on or, in `FLAG_MODE = arith`, overwrites both (R123). -/
theorem finalEffect_setFlags (o z : Bool) :
    ((finalEffect mode kind k s).overflow = s.overflow ∧ (finalEffect mode kind k s).zero = s.zero ∧
        finalEffect mode kind k (setFlags o z s) = setFlags o z (finalEffect mode kind k s)) ∨
      (mode = .arith ∧ finalEffect mode kind k (setFlags o z s) = finalEffect mode kind k s) := by
  cases kind with
  | ld => exact .inl ⟨rfl, rfl, rfl⟩
  | st => exact .inl ⟨rfl, rfl, rfl⟩
  | jmp => exact .inl ⟨rfl, rfl, rfl⟩
  | jze => exact .inl ⟨rfl, rfl, rfl⟩
  | add =>
    cases mode with
    | original => exact .inl ⟨rfl, rfl, rfl⟩
    | arith => exact .inr ⟨rfl, rfl⟩
  | sub =>
    cases mode with
    | original => exact .inl ⟨rfl, rfl, rfl⟩
    | arith => exact .inr ⟨rfl, rfl⟩

end FinalStep

section TwoByteTick

variable (mode : FlagMode) (kind : Kind) (k : Byte) {s : State}

/-- The operand step of each kind (R85): only JZE has one of its own. -/
def operandStep (s : State) : StepReport := if kind = .jze then jzeOperandStep s else idleOperandStep s

/-- One tick of the two-byte instruction `kind k`, whatever its kind. -/
def twoByteTick (s : State) : State :=
  engineTick kind k (operandStep kind) (fun t => .completed (finalEffect mode kind k t)) s

theorem execIn_twoByte (cfg : Config) (s : State) :
    execIn cfg (kind.toInstr k) s = .next (twoByteTick cfg.flagMode kind k s) := by
  cases kind <;> rfl

theorem exec_twoByte (s : State) : exec (kind.toInstr k) s = .next (twoByteTick .original kind k s) := by
  rw [← execIn_config, execIn_twoByte]
  rfl

/-- The operand step completes exactly a JZE that is not taken. -/
theorem operandStep_eq (s : State) :
    operandStep kind s = if kind = .jze ∧ s.acc ≠ 0#8 then .completed (advancePc 2#8 s) else .pending s := by
  cases kind <;> simp [operandStep, jzeOperandStep, accIsZero, ite_not]

theorem twoByteTick_fetch (hi : s.inflight = none) :
    twoByteTick mode kind k s = setInflight (some { kind := kind, step := .step0, operand := k }) s :=
  engineTick_fetch kind _ _ hi

theorem twoByteTick_pend {r : Inflight} (hi : s.inflight = some r) (h0 : r.step = .step0)
    (hp : ¬ (kind = .jze ∧ s.acc ≠ 0#8)) :
    twoByteTick mode kind k s = setInflight (some { r with step := .step1 }) s := by
  rw [twoByteTick, engineTick_step0 kind _ _ hi h0, operandStep_eq, if_neg hp, settle_pending]

theorem twoByteTick_skip {r : Inflight} (hi : s.inflight = some r) (h0 : r.step = .step0)
    (hp : kind = .jze ∧ s.acc ≠ 0#8) :
    twoByteTick mode kind k s = setInflight none (advancePc 2#8 s) := by
  rw [twoByteTick, engineTick_step0 kind _ _ hi h0, operandStep_eq, if_pos hp, settle_completed]

theorem twoByteTick_final {r : Inflight} (hi : s.inflight = some r) (h1 : r.step = .step1) :
    twoByteTick mode kind k s = setInflight none (finalEffect mode kind k s) := by
  rw [twoByteTick, engineTick_step1 kind _ _ hi h1, settle_completed]

/-- A tick of a two-byte instruction moves only `pc` and the record, or it is the final step. -/
theorem twoByteTick_cases (s : State) :
    (∃ r p, twoByteTick mode kind k s = setInflight r (setPc p s)) ∨
    (∃ r, s.inflight = some r ∧ r.step = .step1 ∧
      twoByteTick mode kind k s = setInflight none (finalEffect mode kind k s)) := by
  cases hi : s.inflight with
  | none => exact .inl ⟨_, s.pc, twoByteTick_fetch mode kind k hi⟩
  | some r =>
    cases hr : r.step with
    | step1 => exact .inr ⟨r, rfl, hr, twoByteTick_final mode kind k hi hr⟩
    | step0 =>
      by_cases hp : kind = .jze ∧ s.acc ≠ 0#8
      · exact .inl ⟨none, s.pc + 2#8, twoByteTick_skip mode kind k hi hr hp⟩
      · exact .inl ⟨_, s.pc, twoByteTick_pend mode kind k hi hr hp⟩

end TwoByteTick

section Tick

variable {cfg : Config} {mode : FlagMode} {s t : State}

/-- What a `Tick` can do from `s`, one constructor per row of R81, R82, R85 and R86. -/
inductive TickCase (mode : FlagMode) (s : State) : State → Prop
  /-- Halted: nothing changes (R155). -/
  | halted (he : s.error = true) : TickCase mode s s
  /-- The fetch tick of NOP (R100). -/
  | nop (he : s.error = false) (hi : s.inflight = none) (hb : memRead s.pc s = 0x00#8) :
      TickCase mode s (advancePc 1#8 s)
  /-- The fetch tick of HALT or of an illegal byte (R151). -/
  | fault (cause : FaultCause) (he : s.error = false) (hi : s.inflight = none)
      (hb : memRead s.pc s = 0x04#8 ∨ 8 ≤ (memRead s.pc s).toNat) :
      TickCase mode s (raiseMachineFault cause s)
  /-- The fetch tick of a two-byte instruction (R82). -/
  | fetch (kind : Kind) (he : s.error = false) (hi : s.inflight = none)
      (hb : memRead s.pc s = opcodeByte (.twoByte kind)) :
      TickCase mode s
        (setInflight (some { kind := kind, step := .step0, operand := memRead (s.pc + 1#8) s }) s)
  /-- An operand step that leaves the instruction in flight (R85). -/
  | pend (r : Inflight) (he : s.error = false) (hi : s.inflight = some r) (h0 : r.step = .step0)
      (hp : ¬ (r.kind = .jze ∧ s.acc ≠ 0#8)) :
      TickCase mode s (setInflight (some { r with step := .step1 }) s)
  /-- The operand step of a JZE that is not taken (R85). -/
  | skip (r : Inflight) (he : s.error = false) (hi : s.inflight = some r) (h0 : r.step = .step0)
      (hp : r.kind = .jze ∧ s.acc ≠ 0#8) :
      TickCase mode s (setInflight none (advancePc 2#8 s))
  /-- A final step (R86). -/
  | final (r : Inflight) (he : s.error = false) (hi : s.inflight = some r) (h1 : r.step = .step1) :
      TickCase mode s (setInflight none (finalEffect mode r.kind r.operand s))

/-- A tick of the instruction in flight is one of the last three cases. -/
theorem tickCase_twoByteTick {r : Inflight} (he : s.error = false) (hi : s.inflight = some r) :
    TickCase mode s (twoByteTick mode r.kind r.operand s) := by
  cases hr : r.step with
  | step1 => rw [twoByteTick_final mode _ _ hi hr]; exact .final r he hi hr
  | step0 =>
    by_cases hp : r.kind = .jze ∧ s.acc ≠ 0#8
    · rw [twoByteTick_skip mode _ _ hi hr hp]; exact .skip r he hi hr hp
    · rw [twoByteTick_pend mode _ _ hi hr hp]; exact .pend r he hi hr hp

/-- Every tick is one of the cases. -/
theorem exists_tickCase (hcfg : cfg.wellFormed = true) (s : State) :
    ∃ t, stepIn cfg s = .next t ∧ TickCase cfg.flagMode s t := by
  rw [stepIn_wellFormed hcfg]
  obtain ⟨he, h⟩ | ⟨he, hi, hb, h⟩ | ⟨he, hi, hb, h⟩ | ⟨kind, he, hi, hb, h⟩ | ⟨he, hi, hb, h⟩ | ⟨r, he, hi, h⟩ :=
    tickWith_cases (run := execIn cfg) (s := s)
  · exact ⟨s, h, .halted he⟩
  · exact ⟨_, h, .nop he hi hb⟩
  · exact ⟨_, h, .fault .halt he hi (.inl hb)⟩
  · rw [execIn_twoByte, twoByteTick_fetch _ _ _ hi] at h
    exact ⟨_, h, .fetch kind he hi hb⟩
  · exact ⟨_, h, .fault .illegalOpcode he hi (.inr hb)⟩
  · rw [Inflight.toInstr, execIn_twoByte] at h
    exact ⟨_, h, tickCase_twoByteTick he hi⟩

/-- The inversion of a tick: a tick that has a next state ran in a well-formed configuration, by one of the cases. -/
theorem tickCase_of_stepIn (h : stepIn cfg s = .next t) : cfg.wellFormed = true ∧ TickCase cfg.flagMode s t := by
  by_cases hcfg : cfg.wellFormed = true
  · obtain ⟨u, hu, hcase⟩ := exists_tickCase hcfg s
    rw [hu] at h
    cases h
    exact ⟨hcfg, hcase⟩
  · rw [stepIn, if_neg hcfg] at h
    cases h

/-- Each case is what the tick does: the cases are exact. -/
theorem stepIn_of_tickCase (hcfg : cfg.wellFormed = true) (h : TickCase cfg.flagMode s t) :
    stepIn cfg s = .next t := by
  rw [stepIn_wellFormed hcfg]
  cases h with
  | halted he => exact tickWith_halted he
  | nop he hi hb =>
    have hd : decode (fetchBytes s) = .ok (.nop, [memRead (s.pc + 1#8) s]) := by
      rw [fetchBytes, hb]
      exact decode_nop _
    exact (tickWith_fetch he hi).trans (fetchTick_ok hd)
  | fault cause he hi hb =>
    rw [tickWith_fetch he hi]
    obtain hb | hb := hb
    · have hd : decode (fetchBytes s) = .ok (.halt, [memRead (s.pc + 1#8) s]) := by
        rw [fetchBytes, hb]
        exact decode_halt _
      exact fetchTick_ok hd
    · exact fetchTick_error (decode_illegal hb _)
  | fetch kind he hi hb =>
    have hd : decode (fetchBytes s) = .ok (kind.toInstr (memRead (s.pc + 1#8) s), []) := by
      rw [fetchBytes, hb]
      exact decode_twoByte kind _ _
    rw [tickWith_fetch he hi, fetchTick_ok hd, execIn_twoByte, twoByteTick_fetch _ _ _ hi]
  | pend r he hi h0 hp =>
    rw [tickWith_advance he hi, Inflight.toInstr, execIn_twoByte, twoByteTick_pend _ _ _ hi h0 hp]
  | skip r he hi h0 hp =>
    rw [tickWith_advance he hi, Inflight.toInstr, execIn_twoByte, twoByteTick_skip _ _ _ hi h0 hp]
  | final r he hi h1 =>
    rw [tickWith_advance he hi, Inflight.toInstr, execIn_twoByte, twoByteTick_final _ _ _ hi h1]

end Tick

end Sys2Proof.Proofs

/-! The invariant: which operations keep it, a tick, an event, a sequence of events. -/

namespace Sys2Proof.Proofs

open Sys2Proof Sys2Proof.Machine Sys2Proof.Laws Sys2Proof.Safety

section Invariant

variable {cfg : Config} {s t : State}

/-- The operand of ST names one of the cells every well-formed configuration has (R43). -/
theorem operand_lt_capacity (hcfg : cfg.wellFormed = true) (k : Byte) : k.toNat < cfg.memCapacity := by
  have hcap : 256 ≤ cfg.memCapacity := of_decide_eq_true hcfg
  exact k.isLt.trans_le hcap

/-- The invariant speaks of no `pc`. -/
theorem inv_setPc (h : Inv cfg s) (v : Byte) : Inv cfg (setPc v s) :=
  ⟨h.mem_wf, h.mem_within, h.halted_empty, h.reached, h.flags_original⟩

/-- With nothing in flight the machine may halt. -/
theorem inv_raiseMachineFault (h : Inv cfg s) (hi : s.inflight = none) (c : FaultCause) :
    Inv cfg (raiseMachineFault c s) :=
  ⟨h.mem_wf, h.mem_within, fun _ => hi, h.reached, h.flags_original⟩

/-- While the machine is not halted any record that the rules reach may be in flight (R28). -/
theorem inv_setInflight_some (h : Inv cfg s) (he : s.error = false) (r : Inflight)
    (hr : r.kind = .jze → r.step = .step1 → s.acc = 0#8) : Inv cfg (setInflight (some r) s) where
  mem_wf := h.mem_wf
  mem_within := h.mem_within
  halted_empty := fun hh => absurd (he.symm.trans hh) Bool.false_ne_true
  reached := fun k hk => by
    cases hk
    exact hr rfl rfl
  flags_original := h.flags_original

/-- With the record removed only the memory and the flags matter. -/
theorem inv_setInflight_none (hwf : t.mem.wf = true) (hin : t.mem.within cfg.memCapacity = true)
    (hflags : cfg.flagMode = .original → t.overflow = false ∧ t.zero = false) : Inv cfg (setInflight none t) :=
  ⟨hwf, hin, fun _ => rfl, (fun _ hk => nomatch hk), hflags⟩

/-- The final step of ST writes an existing cell, and no other final step writes memory. -/
theorem inv_finalEffect (hcfg : cfg.wellFormed = true) (h : Inv cfg s) (kind : Kind) (k : Byte) :
    Inv cfg (setInflight none (finalEffect cfg.flagMode kind k s)) := by
  apply inv_setInflight_none
  · rw [finalEffect_mem]
    split
    · exact write_wf h.mem_wf _ _
    · exact h.mem_wf
  · rw [finalEffect_mem]
    split
    · exact write_within h.mem_within (operand_lt_capacity hcfg k) _
    · exact h.mem_within
  · intro hm
    obtain ⟨ho, hz⟩ := finalEffect_flags_original kind k s
    rw [hm, ho, hz]
    exact h.flags_original hm

theorem tickCase_keeps_inv (hcfg : cfg.wellFormed = true) (h : Inv cfg s) (hc : TickCase cfg.flagMode s t) :
    Inv cfg t := by
  cases hc with
  | halted => exact h
  | nop => exact inv_setPc h _
  | fault c _ hi => exact inv_raiseMachineFault h hi c
  | fetch kind he => exact inv_setInflight_some h he _ fun _ h1 => nomatch h1
  | pend r he _ _ hp =>
    refine inv_setInflight_some h he _ fun hk _ => ?_
    by_contra ha
    exact hp ⟨hk, ha⟩
  | skip => exact inv_setInflight_none h.mem_wf h.mem_within h.flags_original
  | final r => exact inv_finalEffect hcfg h r.kind r.operand

theorem stepIn_keeps_inv (h : Inv cfg s) (hs : stepIn cfg s = .next t) : Inv cfg t := by
  obtain ⟨hcfg, hc⟩ := tickCase_of_stepIn hs
  exact tickCase_keeps_inv hcfg h hc

/-- After `Reset` the invariant asks nothing but what it asks of the memory (R32, R180). -/
theorem inv_resetEvent (hwf : s.mem.wf = true) (hin : s.mem.within cfg.memCapacity = true) :
    Inv cfg (resetEvent s) :=
  inv_setInflight_none (t := resetEvent s) hwf hin fun _ => ⟨rfl, rfl⟩

end Invariant

section Events

variable {cfg : Config} {sys sys' : System} {e : Event} {r : Reply}

theorem systemInv_mem (h : SystemInv cfg sys) :
    sys.mem.wf = true ∧ sys.mem.within cfg.memCapacity = true := by
  cases sys with
  | constructed m => exact h
  | live s => exact ⟨h.mem_wf, h.mem_within⟩

/-- The invariant asks of the memory only that it is canonical and within the capacity. -/
theorem systemInv_withMem (h : SystemInv cfg sys) {m : Memory} (hwf : m.wf = true)
    (hin : m.within cfg.memCapacity = true) : SystemInv cfg (sys.withMem m) := by
  cases sys with
  | constructed _ => exact ⟨hwf, hin⟩
  | live s => exact ⟨hwf, hin, h.halted_empty, h.reached, h.flags_original⟩

theorem systemInv_resetSystem (h : SystemInv cfg sys) : SystemInv cfg (resetSystem sys) := by
  obtain ⟨hwf, hin⟩ := systemInv_mem h
  cases sys with
  | constructed m => exact inv_resetEvent (s := { State.reset with mem := m }) hwf hin
  | live s => exact inv_resetEvent (s := s) hwf hin

theorem systemInv_hostWrite (h : SystemInv cfg sys) (a : Int) (v : Byte) :
    SystemInv cfg (hostWrite cfg a v sys).1 := by
  obtain ⟨hwf, hin⟩ := systemInv_mem h
  cases hc : inCapacity cfg a with
  | false => rw [hostWrite_outside hc]; exact h
  | true =>
    rw [hostWrite_inside hc]
    have ha : a.toNat < cfg.memCapacity := by
      obtain ⟨h0, hlt⟩ := (inCapacity_iff cfg a).1 hc
      omega
    exact systemInv_withMem h (write_wf hwf _ _) (write_within hin ha _)

/-- A `HostRead` changes nothing (R53). -/
@[simp] theorem hostRead_fst (a : Int) : (hostRead cfg a sys).1 = sys := by
  cases hc : inCapacity cfg a with
  | false => rw [hostRead_outside hc]
  | true => rw [hostRead_inside hc]

/-- A `Tick` that is answered is a tick of a live system. -/
theorem tickSystem_next (h : tickSystem cfg sys = .next (sys', r)) :
    ∃ s t, sys = .live s ∧ sys' = .live t ∧ stepIn cfg s = .next t := by
  cases sys with
  | constructed m => cases h
  | live s =>
    simp only [tickSystem] at h
    split at h
    · next t hs => cases h; exact ⟨s, t, rfl, rfl, hs⟩
    · cases h
    · cases h

/-- An `Observe` that is answered changes nothing (R34, R163). -/
theorem observeSystem_next (h : observeSystem sys = .next (sys', r)) : sys' = sys := by
  cases sys with
  | constructed m => cases h
  | live s => cases h; rfl

theorem handle_keeps_inv (hcfg : cfg.wellFormed = true) (h : SystemInv cfg sys)
    (hh : handle cfg e sys = .next (sys', r)) : SystemInv cfg sys' := by
  rw [handle_wellFormed hcfg] at hh
  cases e with
  | reset => cases hh; exact systemInv_resetSystem h
  | tick =>
    obtain ⟨s, t, rfl, rfl, hs⟩ := tickSystem_next hh
    exact stepIn_keeps_inv h hs
  | hostWrite a v =>
    obtain rfl : (hostWrite cfg a v sys).1 = sys' := congrArg Prod.fst (Host.Outcome.next.inj hh)
    exact systemInv_hostWrite h a v
  | hostRead a =>
    obtain rfl : (hostRead cfg a sys).1 = sys' := congrArg Prod.fst (Host.Outcome.next.inj hh)
    rwa [hostRead_fst]
  | observe => rwa [observeSystem_next hh]

/-- After a `Reset` no event is refused, and the system stays live. -/
theorem handle_live (hcfg : cfg.wellFormed = true) (e : Event) (s : State) :
    ∃ t r, handle cfg e (.live s) = .next (.live t, r) := by
  rw [handle_wellFormed hcfg]
  cases e with
  | reset => exact ⟨_, _, rfl⟩
  | tick =>
    obtain ⟨t, ht, -⟩ := exists_tickCase hcfg s
    exact ⟨t, .done, by simp only [tickSystem, ht]⟩
  | hostWrite a v =>
    cases hc : inCapacity cfg a with
    | false => exact ⟨s, .rejected, congrArg _ (hostWrite_outside hc v _)⟩
    | true => exact ⟨_, .done, congrArg _ (hostWrite_inside hc v _)⟩
  | hostRead a => exact ⟨s, _, congrArg Host.Outcome.next (Prod.ext (hostRead_fst a) rfl)⟩
  | observe => exact ⟨s, _, rfl⟩

/-- A sequence of events is answered exactly when its first event and then the rest are. -/
theorem handleAll_cons {es : List Event} {sys'' : System} {rs : List Reply} :
    handleAll cfg (e :: es) sys = .next (sys'', rs) ↔
      ∃ sys' r rs', handle cfg e sys = .next (sys', r) ∧ handleAll cfg es sys' = .next (sys'', rs') ∧
        rs = r :: rs' := by
  constructor
  · intro h
    simp only [handleAll] at h
    split at h
    · next sys' r hh =>
      split at h
      · next u rs' ha => cases h; exact ⟨sys', r, rs', hh, ha, rfl⟩
      · cases h
      · cases h
    · cases h
    · cases h
  · rintro ⟨sys', r, rs', hh, ha, rfl⟩
    simp only [handleAll, hh, ha]

theorem handleAll_keeps_inv (hcfg : cfg.wellFormed = true) {es : List Event} {rs : List Reply}
    (h : SystemInv cfg sys) (ha : handleAll cfg es sys = .next (sys', rs)) :
    SystemInv cfg sys' ∧ rs.length = es.length := by
  induction es generalizing sys rs with
  | nil => cases ha; exact ⟨h, rfl⟩
  | cons e es ih =>
    obtain ⟨sys₁, r, rs', hh, hrest, rfl⟩ := handleAll_cons.1 ha
    obtain ⟨hinv, hlen⟩ := ih (handle_keeps_inv hcfg h hh) hrest
    exact ⟨hinv, congrArg (· + 1) hlen⟩

theorem handleAll_live (hcfg : cfg.wellFormed = true) (es : List Event) (s : State) :
    ∃ t rs, handleAll cfg es (.live s) = .next (.live t, rs) := by
  induction es generalizing s with
  | nil => exact ⟨s, [], rfl⟩
  | cons e es ih =>
    obtain ⟨s₁, r, hh⟩ := handle_live hcfg e s
    obtain ⟨t, rs, hrest⟩ := ih s₁
    exact ⟨t, r :: rs, handleAll_cons.2 ⟨_, r, rs, hh, hrest, rfl⟩⟩

end Events

/-- Settles O51: by the cases of a tick, each built of operations that keep the invariant. -/
theorem tickKeepsTheInvariant : Obligations.TickKeepsTheInvariant := by
  refine ⟨fun cfg s t h hs => stepIn_keeps_inv h hs, fun s t h hs => ?_⟩
  rw [← stepIn_config] at hs
  exact stepIn_keeps_inv h hs

/-- Settles O52: by induction on the events, each of which keeps the invariant and a live system live. -/
theorem eventsKeepTheInvariant : Obligations.EventsKeepTheInvariant := by
  intro cfg es sys hcfg h
  refine ⟨fun sys' rs ha => handleAll_keeps_inv hcfg h ha, ?_⟩
  rintro s rfl
  obtain ⟨t, rs, ha⟩ := handleAll_live hcfg es s
  exact ⟨t, rs, ha, (handleAll_keeps_inv hcfg h ha).1⟩

/-- Settles O50: `State.reset` is a `Reset` of the empty memory, which is canonical and within any capacity. -/
theorem resetMeetsTheInvariant : Obligations.ResetMeetsTheInvariant := fun cfg =>
  ⟨inv_resetEvent (s := State.reset) fresh_wf (fresh_within cfg.memCapacity),
    fresh_wf, fresh_within cfg.memCapacity⟩

end Sys2Proof.Proofs

/-! What a tick leaves as it was: `pc` between completions, the arithmetic flags, and the frame of the instructions that
store nothing. -/

namespace Sys2Proof.Proofs

open Sys2Proof Sys2Proof.Machine Sys2Proof.Laws Sys2Proof.Safety

section Flags

variable {mode : FlagMode} {s t : State}

/-- In `FLAG_MODE = original` no tick writes a flag (R24, R25). -/
theorem tickCase_flags_original (h : TickCase .original s t) : t.overflow = s.overflow ∧ t.zero = s.zero := by
  cases h with
  | final r => exact finalEffect_flags_original r.kind r.operand s
  | _ => exact ⟨rfl, rfl⟩

/-- A tick from other flag values runs the same case, and either passes the flags on or overwrites both. -/
theorem tickCase_setFlags (o z : Bool) (h : TickCase mode s t) :
    ∃ u, TickCase mode (setFlags o z s) u ∧
      ((t.overflow = s.overflow ∧ t.zero = s.zero ∧ u = setFlags o z t) ∨ (mode = .arith ∧ u = t)) := by
  cases h with
  | halted he => exact ⟨_, .halted he, .inl ⟨rfl, rfl, rfl⟩⟩
  | nop he hi hb => exact ⟨_, .nop he hi hb, .inl ⟨rfl, rfl, rfl⟩⟩
  | fault c he hi hb => exact ⟨_, .fault c he hi hb, .inl ⟨rfl, rfl, rfl⟩⟩
  | fetch kind he hi hb => exact ⟨_, .fetch kind he hi hb, .inl ⟨rfl, rfl, rfl⟩⟩
  | pend r he hi h0 hp => exact ⟨_, .pend r he hi h0 hp, .inl ⟨rfl, rfl, rfl⟩⟩
  | skip r he hi h0 hp => exact ⟨_, .skip r he hi h0 hp, .inl ⟨rfl, rfl, rfl⟩⟩
  | final r he hi h1 =>
    refine ⟨_, .final r he hi h1, ?_⟩
    obtain ⟨ho, hz, hu⟩ | ⟨hm, hu⟩ := finalEffect_setFlags mode r.kind r.operand s o z
    · exact .inl ⟨ho, hz, congrArg (setInflight none) hu⟩
    · exact .inr ⟨hm, congrArg (setInflight none) hu⟩

end Flags

section Frames

variable (kind : Kind) (k : Byte) (s : State)

/-- Every instruction is NOP, HALT or the two-byte instruction of a kind. -/
theorem instr_cases (i : Instr) : i = .nop ∨ i = .halt ∨ ∃ kind k, i = Kind.toInstr kind k := by
  cases i with
  | nop => exact .inl rfl
  | halt => exact .inr (.inl rfl)
  | ld k => exact .inr (.inr ⟨.ld, k, rfl⟩)
  | st k => exact .inr (.inr ⟨.st, k, rfl⟩)
  | add k => exact .inr (.inr ⟨.add, k, rfl⟩)
  | sub k => exact .inr (.inr ⟨.sub, k, rfl⟩)
  | jmp k => exact .inr (.inr ⟨.jmp, k, rfl⟩)
  | jze k => exact .inr (.inr ⟨.jze, k, rfl⟩)

/-- What no tick of a two-byte instruction but ST changes in `FLAG_MODE = original`; the accumulator only in a final
step. -/
theorem twoByteTick_frame (hk : kind ≠ .st) :
    (twoByteTick .original kind k s).mem = s.mem ∧
    (twoByteTick .original kind k s).overflow = s.overflow ∧
    (twoByteTick .original kind k s).zero = s.zero ∧
    (twoByteTick .original kind k s).error = s.error ∧
    ((twoByteTick .original kind k s).acc ≠ s.acc →
      (kind = .ld ∨ kind = .add ∨ kind = .sub) ∧ ∃ r, s.inflight = some r ∧ r.step = .step1) := by
  obtain ⟨r, p, h⟩ | ⟨r, hi, h1, h⟩ := twoByteTick_cases .original kind k s
  · rw [h]
    exact ⟨rfl, rfl, rfl, rfl, fun ha => absurd rfl ha⟩
  · rw [h]
    obtain ⟨ho, hz⟩ := finalEffect_flags_original kind k s
    have hm : (finalEffect .original kind k s).mem = s.mem := by rw [finalEffect_mem, if_neg hk]
    exact ⟨hm, ho, hz, finalEffect_error .original kind k s,
      fun ha => ⟨acc_writer_of_finalEffect .original kind k s ha, r, hi, h1⟩⟩

end Frames

/-- Settles O24: by the cases of a tick. `pc` moves in a NOP, in a JZE not taken and in a final step, and each of them
leaves nothing in flight. -/
theorem pcMovesOnlyAtCompletion : Obligations.PcMovesOnlyAtCompletion := by
  intro cfg s t hs hpc
  obtain ⟨-, hc⟩ := tickCase_of_stepIn hs
  cases hc with
  | halted | fault | fetch | pend => exact absurd rfl hpc
  | nop he hi hb => exact ⟨he, he, hi, .inl ⟨hi, hb, (mod256_add_one s.pc).symm⟩⟩
  | skip r he hi => exact ⟨he, he, rfl, .inr ⟨r, hi, .inl (mod256_add_two s.pc).symm⟩⟩
  | final r he hi =>
    have he' : (finalEffect cfg.flagMode r.kind r.operand s).error = false := by rw [finalEffect_error, he]
    refine ⟨he, he', rfl, .inr ⟨r, hi, ?_⟩⟩
    rw [mod256_add_two]
    exact finalEffect_pc cfg.flagMode r.kind r.operand s

/-- Settles O43: by the cases of a tick, of which only the final step of ADD or SUB in `FLAG_MODE = arith` touches the
flags. -/
theorem originalModeKeepsTheFlagsUnread : Obligations.OriginalModeKeepsTheFlagsUnread := by
  refine ⟨fun cfg s t hm hs => ?_, fun cfg s o z hcfg => ?_⟩
  · obtain ⟨-, hc⟩ := tickCase_of_stepIn hs
    rw [hm] at hc
    exact tickCase_flags_original hc
  · obtain ⟨t, ht, hc⟩ := exists_tickCase hcfg s
    obtain ⟨u, hu, hflags⟩ := tickCase_setFlags o z hc
    exact ⟨t, u, ht, stepIn_of_tickCase hcfg hu, hflags⟩

/-- Settles O47: NOP and HALT by their one write, the two-byte instructions by their common frame. -/
theorem frameOfTheNonStoringInstructions : Obligations.FrameOfTheNonStoringInstructions := by
  intro i s t hst h
  obtain rfl | rfl | ⟨kind, k, rfl⟩ := instr_cases i
  · cases h
    exact ⟨fun _ => rfl, rfl, rfl, fun ha => absurd rfl ha, fun he => absurd rfl he, fun _ => rfl⟩
  · cases h
    exact ⟨fun _ => rfl, rfl, rfl, fun ha => absurd rfl ha, fun _ => rfl, fun _ => rfl⟩
  · have hk : kind ≠ .st := fun hk => hst k (by rw [hk]; rfl)
    rw [exec_twoByte] at h
    cases h
    obtain ⟨hm, ho, hz, he, ha⟩ := twoByteTick_frame kind k s hk
    refine ⟨fun a => by rw [hm], ho, hz, fun hacc => ?_, fun hne => absurd he hne, fun hi => ?_⟩
    · obtain ⟨hkind, r, hi, h1⟩ := ha hacc
      refine ⟨k, r, ?_, hi, h1⟩
      obtain rfl | rfl | rfl := hkind
      · exact .inl rfl
      · exact .inr (.inl rfl)
      · exact .inr (.inr rfl)
    · cases kind <;> simp [Kind.toInstr] at hi

end Sys2Proof.Proofs

/-! Start-up, `Observe` and the logical states. -/

namespace Sys2Proof.Proofs

open Sys2Proof Sys2Proof.Machine Sys2Proof.Laws Sys2Proof.Safety

section LogicalState

variable (s : State)

theorem logicalState_halted_iff : logicalState s = .halted ↔ s.error = true := by
  unfold logicalState
  split
  · next he => simp [he]
  · next he => split <;> simp [he]

theorem logicalState_idle_iff : logicalState s = .idle ↔ s.error = false ∧ s.inflight = none := by
  unfold logicalState
  split
  · next he => simp [he]
  · next he => split <;> simp [*]

theorem logicalState_running_iff :
    logicalState s = .running ↔ s.error = false ∧ ∃ r, s.inflight = some r := by
  unfold logicalState
  split
  · next he => simp [he]
  · next he => simp [he, Option.ne_none_iff_exists']

end LogicalState

/-- Settles O2: `Reset` leaves the memory of construction, which is empty. -/
theorem resetStateIsConstructionThenReset : Obligations.ResetStateIsConstructionThenReset :=
  ⟨handle_wellFormed (by decide) .reset System.powerOn, rfl, rfl, rfl, rfl, rfl, rfl, fresh_read⟩

/-- Settles O3: a system before the first `Reset` has no state for a `Tick` to run from or an `Observe` to show. -/
theorem nothingRunsBeforeTheFirstReset : Obligations.NothingRunsBeforeTheFirstReset :=
  ⟨fresh_read, fun _cfg m hcfg =>
    ⟨handle_wellFormed hcfg .tick (.constructed m), handle_wellFormed hcfg .observe (.constructed m)⟩⟩

/-- Settles O5: `Observe` of a live system is `observe` of its state, which does not look at the record. -/
theorem observeShowsTheRegistersOnly : Obligations.ObserveShowsTheRegistersOnly :=
  fun _cfg s r hcfg =>
    ⟨handle_wellFormed hcfg .observe (.live s), handle_wellFormed hcfg .observe (.live { s with inflight := r })⟩

/-- Settles O49: each logical state by its condition; the invariant has no record in the Halted state. -/
theorem logicalStatesOfRule29 : Obligations.LogicalStatesOfRule29 := by
  refine ⟨fun s => ⟨logicalState_halted_iff s, logicalState_idle_iff s, logicalState_running_iff s⟩, ?_⟩
  rintro cfg s h ⟨he, r, hr⟩
  rw [h.halted_empty he] at hr
  cases hr

end Sys2Proof.Proofs

/-! Memory: the accesses of a tick row by row, what a tick makes of the memory, on which cells it depends, and the host's
accesses. -/

namespace Sys2Proof.Proofs

open Sys2Proof Sys2Proof.Machine Sys2Proof.Laws Sys2Proof.Safety

section Accesses

variable {s : State} {kind : Kind}

/-- A Halted machine accesses nothing (R155). -/
theorem tickAccesses_halted (he : s.error = true) : tickAccesses s = [] := by
  simp [tickAccesses, he]

theorem tickAccesses_fetch (he : s.error = false) (hi : s.inflight = none) :
    tickAccesses s = fetchAccesses s := by
  simp [tickAccesses, he, hi]

theorem tickAccesses_step0 {r : Inflight} (he : s.error = false) (hi : s.inflight = some r)
    (h0 : r.step = .step0) : tickAccesses s = [] := by
  simp [tickAccesses, he, hi, h0]

theorem tickAccesses_step1 {r : Inflight} (he : s.error = false) (hi : s.inflight = some r)
    (h1 : r.step = .step1) : tickAccesses s = finalAccesses r.kind r.operand := by
  simp [tickAccesses, he, hi, h1]

/-- NOP, HALT and an illegal byte are fetched by one read (D13). -/
theorem fetchAccesses_oneByte
    (hb : memRead s.pc s = 0x00#8 ∨ memRead s.pc s = 0x04#8 ∨ 8 ≤ (memRead s.pc s).toNat) :
    fetchAccesses s = [.read s.pc] := by
  obtain hb | hb | hb := hb
  · rw [fetchAccesses, hb]; rfl
  · rw [fetchAccesses, hb]; rfl
  · rw [fetchAccesses, (opcodeOfByte_none _).2 hb]

/-- A two-byte instruction is fetched by two reads. -/
theorem fetchAccesses_twoByte (hb : memRead s.pc s = opcodeByte (.twoByte kind)) :
    fetchAccesses s = [.read s.pc, .read (s.pc + 1#8)] := by
  rw [fetchAccesses, hb, opcodeOfByte_opcodeByte]

/-- The opcode byte is read in every fetch tick. -/
theorem read_pc_mem_fetchAccesses (s : State) : Access.read s.pc ∈ fetchAccesses s := by
  unfold fetchAccesses
  split <;> exact List.mem_cons_self

/-- The six opcode bytes of the two-byte instructions (R63). -/
theorem exists_kind_of_mem_twoByteOpcodes {b : Byte}
    (hb : b ∈ [0x01#8, 0x02#8, 0x03#8, 0x05#8, 0x06#8, 0x07#8]) : ∃ kind, b = opcodeByte (.twoByte kind) := by
  simp only [List.mem_cons, List.not_mem_nil, or_false] at hb
  obtain h | h | h | h | h | h := hb
  · exact ⟨.ld, h⟩
  · exact ⟨.st, h⟩
  · exact ⟨.add, h⟩
  · exact ⟨.jmp, h⟩
  · exact ⟨.jze, h⟩
  · exact ⟨.sub, h⟩

end Accesses

section PerformWrites

variable {v b : Byte} {a : Nat} {l : List Access} {m : Memory}

/-- The memory after one access of the core, with `v` the byte a write stores. -/
def performWrite (v : Byte) (m : Memory) : Access → Memory
  | .read _ => m
  | .write b => m.write b.toNat v

/-- The memory after some accesses in order; a tick's memory is of this form by `tickCase_mem`. -/
def performWrites (v : Byte) (l : List Access) (m : Memory) : Memory := l.foldl (performWrite v) m

theorem performWrites_cons (v : Byte) (acc : Access) (l : List Access) (m : Memory) :
    performWrites v (acc :: l) m = performWrites v l (performWrite v m acc) := rfl

theorem performWrite_wf (hm : m.wf = true) (v : Byte) (acc : Access) : (performWrite v m acc).wf = true := by
  cases acc with
  | read b => exact hm
  | write b => exact write_wf hm _ _

/-- A cell that no write access names keeps its byte. -/
theorem read_performWrites_other (hm : m.wf = true) (h : ∀ b : Byte, Access.write b ∈ l → a ≠ b.toNat) :
    (performWrites v l m).read a = m.read a := by
  induction l generalizing m with
  | nil => rfl
  | cons acc l ih =>
    rw [performWrites_cons, ih (performWrite_wf hm v acc) fun b hb => h b (List.mem_cons_of_mem _ hb)]
    cases acc with
    | read b => rfl
    | write b => exact (read_write hm _ _ _).trans (if_neg (h b List.mem_cons_self))

/-- A cell that a write access names holds the byte stored. -/
theorem read_performWrites_written (hm : m.wf = true) (h : Access.write b ∈ l) :
    (performWrites v l m).read b.toNat = v := by
  induction l generalizing m with
  | nil => cases h
  | cons acc l ih =>
    by_cases hl : Access.write b ∈ l
    · exact ih (performWrite_wf hm v acc) hl
    · obtain rfl : Access.write b = acc := (List.mem_cons.1 h).resolve_right hl
      rw [performWrites_cons, read_performWrites_other (performWrite_wf hm v _)]
      · exact (read_write hm _ _ _).trans (if_pos rfl)
      · rintro c hc hbc
        exact hl (BitVec.eq_of_toNat_eq hbc ▸ hc)

/-- The same writes to two memories that agree on a cell leave them in agreement on it. -/
theorem read_performWrites_congr {n : Memory} (hm : m.wf = true) (hn : n.wf = true) (h : m.read a = n.read a) :
    (performWrites v l m).read a = (performWrites v l n).read a := by
  induction l generalizing m n with
  | nil => exact h
  | cons acc l ih =>
    refine ih (performWrite_wf hm v acc) (performWrite_wf hn v acc) ?_
    cases acc with
    | read b => exact h
    | write b => simp only [performWrite, read_write hm, read_write hn, h]

/-- A fetch tick writes nothing. -/
theorem performWrites_fetchAccesses (v : Byte) (s : State) (m : Memory) :
    performWrites v (fetchAccesses s) m = m := by
  unfold fetchAccesses
  split <;> rfl

end PerformWrites

section TickMemory

variable {mode : FlagMode} {s t : State} {m : Memory}

/-- The memory after a tick is the memory before it with the accumulator stored by the tick's write accesses (R48). -/
theorem tickCase_mem (h : TickCase mode s t) : t.mem = performWrites s.acc (tickAccesses s) s.mem := by
  cases h with
  | halted he => rw [tickAccesses_halted he]; rfl
  | nop he hi => rw [tickAccesses_fetch he hi, performWrites_fetchAccesses]; rfl
  | fault c he hi => rw [tickAccesses_fetch he hi, performWrites_fetchAccesses]; rfl
  | fetch kind he hi => rw [tickAccesses_fetch he hi, performWrites_fetchAccesses]; rfl
  | pend r he hi h0 => rw [tickAccesses_step0 he hi h0]; rfl
  | skip r he hi h0 => rw [tickAccesses_step0 he hi h0]; rfl
  | final r he hi h1 =>
    rw [tickAccesses_step1 he hi h1, setInflight_mem, finalEffect_mem]
    cases r.kind <;> rfl

/-- A final step from another memory that agrees on the cell it reads: the same registers, and its own write made in the
other memory. -/
theorem finalEffect_withMem (mode : FlagMode) (kind : Kind) (k : Byte) (s : State)
    (hr : Access.read k ∈ finalAccesses kind k → m.read k.toNat = s.mem.read k.toNat) :
    finalEffect mode kind k { s with mem := m } =
      { finalEffect mode kind k s with mem := performWrites s.acc (finalAccesses kind k) m } := by
  have hread (h : Access.read k ∈ finalAccesses kind k) : operandRead k { s with mem := m } = operandRead k s := hr h
  cases kind with
  | ld => simp only [finalEffect, hread List.mem_cons_self]; rfl
  | add => simp only [finalEffect, hread List.mem_cons_self]; cases mode <;> rfl
  | sub => simp only [finalEffect, hread List.mem_cons_self]; cases mode <;> rfl
  | st => rfl
  | jmp => rfl
  | jze => rfl

/-- A tick from another memory that agrees on the cells the tick reads runs the same case, to the same registers and
record, and makes its own writes in the other memory. -/
theorem tickCase_withMem (hr : ∀ b : Byte, Access.read b ∈ tickAccesses s → m.read b.toNat = s.mem.read b.toNat)
    (h : TickCase mode s t) :
    TickCase mode { s with mem := m } { t with mem := performWrites s.acc (tickAccesses s) m } := by
  have hop (he : s.error = false) (hi : s.inflight = none) : memRead s.pc { s with mem := m } = memRead s.pc s :=
    hr s.pc (tickAccesses_fetch he hi ▸ read_pc_mem_fetchAccesses s)
  cases h with
  | halted he =>
    rw [tickAccesses_halted he]
    exact .halted he
  | nop he hi hb =>
    rw [tickAccesses_fetch he hi, performWrites_fetchAccesses]
    exact .nop (s := { s with mem := m }) he hi ((hop he hi).trans hb)
  | fault c he hi hb =>
    rw [tickAccesses_fetch he hi, performWrites_fetchAccesses]
    exact .fault (s := { s with mem := m }) c he hi (hop he hi ▸ hb)
  | fetch kind he hi hb =>
    have hacc : tickAccesses s = [.read s.pc, .read (s.pc + 1#8)] := by
      rw [tickAccesses_fetch he hi, fetchAccesses_twoByte hb]
    have hk : memRead (s.pc + 1#8) { s with mem := m } = memRead (s.pc + 1#8) s := hr _ (by simp [hacc])
    rw [hacc, ← hk]
    exact .fetch (s := { s with mem := m }) kind he hi ((hop he hi).trans hb)
  | pend r he hi h0 hp =>
    rw [tickAccesses_step0 he hi h0]
    exact .pend (s := { s with mem := m }) r he hi h0 hp
  | skip r he hi h0 hp =>
    rw [tickAccesses_step0 he hi h0]
    exact .skip (s := { s with mem := m }) r he hi h0 hp
  | final r he hi h1 =>
    rw [tickAccesses_step1 he hi h1] at hr ⊢
    have hfin : TickCase mode { s with mem := m } _ := .final r he hi h1
    rw [finalEffect_withMem mode r.kind r.operand s (hr r.operand)] at hfin
    exact hfin

end TickMemory

section MemoryPrimitives

variable {s : State}

/-- Any writes to a canonical memory keep it canonical. -/
theorem foldl_write_wf {m : Memory} (hm : m.wf = true) (ws : List (Nat × Byte)) :
    (ws.foldl (fun m w => Memory.write m w.1 w.2) m).wf = true := by
  induction ws generalizing m with
  | nil => exact hm
  | cons w ws ih => exact ih (write_wf hm _ _)

/-- A cell read right after `MemWrite` (R41). -/
theorem memRead_memWrite (hm : s.mem.wf = true) (a c v : Byte) :
    memRead c (memWrite a v s) = if c = a then v else memRead c s := by
  simp only [memRead, memWrite_mem, read_write hm, BitVec.toNat_inj]

end MemoryPrimitives

/-- Settles O31: the tick from the other memory runs the same case, and both memories are written by the same accesses. -/
theorem tickDependsOnlyOnItsReads : Obligations.TickDependsOnlyOnItsReads := by
  intro cfg s m hcfg hs hm hr
  obtain ⟨t, ht, hc⟩ := exists_tickCase hcfg s
  refine ⟨t, _, ht, stepIn_of_tickCase hcfg (tickCase_withMem hr hc), rfl, fun a => ⟨?_, ?_⟩⟩
  · rintro ⟨b, hb, rfl⟩
    rw [tickCase_mem hc]
    exact (read_performWrites_written hm hb).trans (read_performWrites_written hs hb).symm
  · exact read_performWrites_other hm

/-- Settles O4: by whether the address is the number of a cell. -/
theorem hostAccessIsCheckedAgainstTheCapacity : Obligations.HostAccessIsCheckedAgainstTheCapacity := by
  intro cfg a v sys hcfg hm
  refine ⟨fun ha => ?_, fun ha => ?_⟩
  · have hin := (inCapacity_iff cfg a).2 ha
    refine ⟨?_, sys.mem.write a.toNat v, ?_, fun c => ?_⟩
    · rw [handle_wellFormed hcfg, ← hostRead_inside hin]
    · rw [handle_wellFormed hcfg, ← hostWrite_inside hin]
    · have hc : c = a.toNat ↔ (c : Int) = a := by omega
      simp only [read_write hm, hc]
  · have hout : inCapacity cfg a = false := Bool.eq_false_iff.2 (mt (inCapacity_iff cfg a).1 ha)
    constructor
    · rw [handle_wellFormed hcfg, ← hostRead_outside hout]
    · rw [handle_wellFormed hcfg, ← hostWrite_outside hout]

/-- Settles O28: by induction on the writes from the last one back, since a read looks at the last write first. -/
theorem readReturnsTheLastWrite : Obligations.ReadReturnsTheLastWrite := by
  refine ⟨fun ws a => ?_, fun s a c v hm => ⟨memRead_memWrite hm a c v, memWrite_wf hm a v, rfl⟩⟩
  induction ws using List.reverseRecOn with
  | nil => exact fresh_read a
  | append_singleton ws w ih =>
    rw [List.foldl_concat, read_write (foldl_write_wf fresh_wf ws), List.reverse_concat, List.find?_cons, ih]
    by_cases h : w.1 = a
    · simp [h]
    · simp [h, Ne.symm h]

/-- Settles O30: the memory after a tick is made by its write accesses alone. -/
theorem tickWritesOnlyItsWriteAccess : Obligations.TickWritesOnlyItsWriteAccess := by
  intro cfg s t hm hs a ha
  obtain ⟨-, hc⟩ := tickCase_of_stepIn hs
  rw [tickCase_mem hc]
  exact read_performWrites_other hm ha

/-- Settles O32: an address of the core is a byte, so that a tick reads and writes cells below 256 only. -/
theorem coreReachesCellsBelow256Only : Obligations.CoreReachesCellsBelow256Only := by
  refine ⟨fun cfg e sys s hlt => ?_, fun cfg s b hcap _ => b.isLt.trans_le hcap, fun cfg s m hcap hs hm hlow => ?_⟩
  · have hcfg : ¬ cfg.wellFormed = true := fun h => absurd (of_decide_eq_true h) (Nat.not_le.2 hlt)
    exact ⟨if_neg hcfg, if_neg hcfg⟩
  · have hcfg : cfg.wellFormed = true := decide_eq_true hcap
    obtain ⟨t, ht, hc⟩ := exists_tickCase hcfg s
    have hu := stepIn_of_tickCase hcfg (tickCase_withMem (fun b _ => hlow b.toNat b.isLt) hc)
    refine ⟨t, _, ht, hu, rfl, fun a ha => ?_, fun a ha => ?_⟩
    · rw [tickCase_mem hc]
      exact read_performWrites_congr hm hs (hlow a ha)
    · rw [tickCase_mem hc]
      exact read_performWrites_other hs fun b _ hab => absurd b.isLt (by omega)

/-- Settles O33: the state after the final step of ST reads as a `MemWrite` of the accumulator to the operand's cell. -/
theorem fetchSeesTheStoreBeforeIt : Obligations.FetchSeesTheStoreBeforeIt := by
  intro s k hm he hi
  have ht : step s = .next (setInflight none (finalEffect .original .st k s)) := by
    rw [← stepIn_config]
    exact stepIn_of_tickCase (by decide) (.final _ he hi rfl)
  refine ⟨_, ht, he, rfl, (mod256_add_two s.pc).symm, ?_⟩
  have hread (c : Byte) : memRead c (setInflight none (finalEffect .original .st k s)) =
      if c = k then s.acc else memRead c s := memRead_memWrite hm k c s.acc
  rw [fetchBytes, hread, hread]

/-- Settles O29: row by row, from the error check, the opcode byte and the step of the record. -/
theorem accessTableOfRule48 : Obligations.AccessTableOfRule48 := by
  refine ⟨fun s he => tickAccesses_halted he, fun s he hi => ⟨fun hb => ?_, fun hb => ?_⟩, fun s kind k he => ⟨?_, ?_⟩⟩
  · rw [tickAccesses_fetch he hi, fetchAccesses_oneByte hb]
  · obtain ⟨kind, hk⟩ := exists_kind_of_mem_twoByteOpcodes hb
    rw [tickAccesses_fetch he hi, fetchAccesses_twoByte hk, mod256_add_one]
  · intro hi
    exact tickAccesses_step0 he hi rfl
  · intro hi
    rw [tickAccesses_step1 he hi rfl]
    refine ⟨?_, ?_, ?_⟩
    · rintro (rfl | rfl | rfl) <;> rfl
    · rintro rfl
      rfl
    · rintro (rfl | rfl) <;> rfl

end Sys2Proof.Proofs

/-! The encoding: what a successful decode read, the opcode table's numbering, and the length by the opcode byte. -/

namespace Sys2Proof.Proofs

open Sys2Proof Sys2Proof.Machine Sys2Proof.Laws

section Encoding

variable {bytes rest : List Byte} {i : Instr}

/-- No operand is reserved (R64). -/
theorem wellFormed_eq_true (i : Instr) : i.wellFormed = true := by cases i <;> rfl

/-- The two-byte format: the kind's opcode byte, then the operand (R62). -/
@[simp] theorem encode_toInstr (kind : Kind) (k : Byte) :
    encode (kind.toInstr k) = [opcodeByte (.twoByte kind), k] := by
  cases kind <;> rfl

@[simp] theorem length_toInstr (kind : Kind) (k : Byte) : (kind.toInstr k).length = 2 := by cases kind <;> rfl

theorem decode_encode_append (i : Instr) (rest : List Byte) : decode (encode i ++ rest) = .ok (i, rest) := by
  obtain rfl | rfl | ⟨kind, k, rfl⟩ := instr_cases i
  · exact decode_nop rest
  · exact decode_halt rest
  · rw [encode_toInstr]
    exact decode_twoByte kind k rest

/-- The inversion of the decoder: what it answers stands encoded at the head of the bytes it was given. -/
theorem eq_encode_append_of_decode (h : decode bytes = .ok (i, rest)) : bytes = encode i ++ rest := by
  cases bytes with
  | nil => cases h
  | cons b tail =>
    cases hop : opcodeOfByte b with
    | none =>
      rw [decode_illegal ((opcodeOfByte_none b).1 hop)] at h
      cases h
    | some op =>
      obtain rfl := opcodeOfByte_some hop
      cases op with
      | nop | halt =>
        cases h
        rfl
      | twoByte kind =>
        cases tail with
        | nil => simp [decode, decodeRest] at h
        | cons k rest' =>
          rw [decode_twoByte] at h
          cases h
          rw [encode_toInstr]
          rfl

theorem decode_eq_ok_iff : decode bytes = .ok (i, rest) ↔ bytes = encode i ++ rest :=
  ⟨eq_encode_append_of_decode, fun h => h ▸ decode_encode_append i rest⟩

/-- The decoder answers one of the two formats: `OP` with its two opcode bytes (R61), or `OPA` with its six (R62). -/
theorem decode_ok_cases (h : decode bytes = .ok (i, rest)) :
    (i = .nop ∧ bytes = 0x00#8 :: rest) ∨ (i = .halt ∧ bytes = 0x04#8 :: rest) ∨
      ∃ kind k, i = Kind.toInstr kind k ∧ bytes = opcodeByte (.twoByte kind) :: k :: rest := by
  obtain rfl := eq_encode_append_of_decode h
  obtain rfl | rfl | ⟨kind, k, rfl⟩ := instr_cases i
  · exact .inl ⟨rfl, rfl⟩
  · exact .inr (.inl ⟨rfl, rfl⟩)
  · exact .inr (.inr ⟨kind, k, rfl, by rw [encode_toInstr]; rfl⟩)

end Encoding

/-- In the opcode table's numbering a one-byte instruction is followed by 0. -/
theorem tableBytes_oneByte (b : Byte) : tableBytes 8 b.toNat = (b, 0#8) := by
  have hb : b.toNat % 2 ^ 8 = b.toNat := Nat.mod_eq_of_lt b.isLt
  rw [tableBytes, hb, Nat.div_eq_of_lt b.isLt, BitVec.ofNat_toNat, BitVec.setWidth_eq]

/-- The first byte of a two-byte instruction is the less significant one (R71). -/
theorem tableBytes_twoByte (b k : Byte) : tableBytes 16 (b.toNat + 256 * k.toNat) = (b, k) := by
  have hb := b.isLt
  have hk := k.isLt
  have hw : (b.toNat + 256 * k.toNat) % 2 ^ 16 = b.toNat + 256 * k.toNat := Nat.mod_eq_of_lt (by omega)
  rw [tableBytes, hw]
  refine Prod.ext (BitVec.eq_of_toNat_eq ?_) (BitVec.eq_of_toNat_eq ?_)
  · simp only [BitVec.toNat_ofNat]
    omega
  · simp only [BitVec.toNat_ofNat]
    omega

theorem decodeTableWord_eq_some {nbits w : Nat} {b k : Byte} {i : Instr} {rest : List Byte}
    (hw : tableBytes nbits w = (b, k)) (hd : decode [b, k] = .ok (i, rest)) : decodeTableWord nbits w = some i := by
  simp [decodeTableWord, hw, hd]

/-- Settles O8: the decoder reads back every encoding, and its inversion says that it reads nothing else. -/
theorem decodeExactlyInvertsEncode : Obligations.DecodeExactlyInvertsEncode := by
  intro bytes i rest
  rw [decode_eq_ok_iff, wellFormed_eq_true i, eq_self, true_and]

/-- Settles O9: the number is taken apart into the bytes it was made of, with 0 after a one-byte instruction. -/
theorem tableNumberDecodesToItsInstruction : Obligations.TableNumberDecodesToItsInstruction := by
  intro i
  obtain rfl | rfl | ⟨kind, k, rfl⟩ := instr_cases i
  · exact decodeTableWord_eq_some (tableBytes_oneByte 0x00#8) (decode_nop _)
  · exact decodeTableWord_eq_some (tableBytes_oneByte 0x04#8) (decode_halt _)
  · rw [encode_toInstr, length_toInstr]
    exact decodeTableWord_eq_some (tableBytes_twoByte _ k) (decode_twoByte kind k [])

/-- Settles O11: by the format the decoder answered, which fixes the length and lists the opcode bytes. -/
theorem lengthIsDecidedByTheOpcodeByte : Obligations.LengthIsDecidedByTheOpcodeByte := by
  intro b tail i rest h
  obtain ⟨rfl, hb⟩ | ⟨rfl, hb⟩ | ⟨kind, k, rfl, hb⟩ := decode_ok_cases h
  · cases hb
    exact ⟨Nat.add_comm _ _, by decide, by decide⟩
  · cases hb
    exact ⟨Nat.add_comm _ _, by decide, by decide⟩
  · cases hb
    rw [length_toInstr]
    exact ⟨Nat.add_comm _ _, by cases kind <;> decide, by cases kind <;> decide⟩

/-- Settles O7: each vector is a case of the decoder. -/
theorem writtenWordsDecode : Obligations.WrittenWordsDecode :=
  ⟨decode_nop _, decode_twoByte .ld _ _, decode_twoByte .st _ _, decode_twoByte .add _ _, decode_halt _,
    decode_twoByte .jmp _ _, decode_twoByte .jze _ _, decode_twoByte .sub _ _,
    decode_illegal (by decide) _, decode_illegal (by decide) _⟩

/-- Settles O10: each clause is a case of the decoder. -/
theorem opcodeMapOfRule63 : Obligations.OpcodeMapOfRule63 := by
  intro b k rest
  refine ⟨?_, ?_, ?_, ?_, ?_, ?_, ?_, ?_, fun h => decode_illegal h _⟩ <;> rintro rfl
  · exact decode_nop _
  · exact decode_twoByte .ld k rest
  · exact decode_twoByte .st k rest
  · exact decode_twoByte .add k rest
  · exact decode_halt _
  · exact decode_twoByte .jmp k rest
  · exact decode_twoByte .jze k rest
  · exact decode_twoByte .sub k rest

/-- Settles O16: an illegal byte is the fault case of a fetch tick; each kind has its own opcode byte, which takes any
operand. -/
theorem illegalOpcodeByteFaults : Obligations.IllegalOpcodeByteFaults := by
  refine ⟨fun s he hi hb => ?_, fun kind k => ⟨opcodeByte (.twoByte kind), decode_twoByte kind k []⟩⟩
  rw [← stepIn_config]
  exact stepIn_of_tickCase (by decide) (.fault .illegalOpcode he hi (.inr hb))

end Sys2Proof.Proofs

/-! The cycle engine: the tick as the one function of R90, and the instructions that a run of ticks performs. -/

namespace Sys2Proof.Proofs

open Sys2Proof Sys2Proof.Machine Sys2Proof.Laws Sys2Proof.Safety

section RuleNinety

variable {mode : FlagMode} {kind : Kind} {s t : State}

/-- R123 computes the flags on numbers, the model on bytes. -/
theorem flagsAdd_eq_setFlags (mode : FlagMode) (a m : Byte) (s : State) :
    flagsAdd mode a m s =
      setFlags (arithFlags mode .add a.toNat m.toNat s).1 (arithFlags mode .add a.toNat m.toNat s).2 s := by
  cases mode <;> rfl

/-- Two bytes are equal exactly when their difference modulo 256 is 0. -/
theorem byte_beq_eq_sub_beq_zero (a m : Byte) : (a == m) = ((a.toNat + 256 - m.toNat) % 256 == 0) := by
  have ha := a.isLt
  have hm := m.isLt
  rw [Bool.eq_iff_iff, beq_iff_eq, beq_iff_eq, ← BitVec.toNat_inj]
  omega

theorem flagsSub_eq_setFlags (mode : FlagMode) (a m : Byte) (s : State) :
    flagsSub mode a m s =
      setFlags (arithFlags mode .sub a.toNat m.toNat s).1 (arithFlags mode .sub a.toNat m.toNat s).2 s := by
  cases mode with
  | original => rfl
  | arith => rw [flagsSub_arith, byte_beq_eq_sub_beq_zero]; rfl

/-- The final step in the model's operations is the one that R90 writes out. -/
theorem finalEffect_eq_ninetyEffect (mode : FlagMode) (kind : Kind) (k : Byte) (s : State) :
    finalEffect mode kind k s = ninetyEffect mode kind k s := by
  cases kind with
  | ld | st => simp only [ninetyEffect, mod256_add_two]; rfl
  | add => simp only [finalEffect, flagsAdd_eq_setFlags, ninetyEffect, mod256_add, mod256_add_two]; rfl
  | sub => simp only [finalEffect, flagsSub_eq_setFlags, ninetyEffect, mod256_sub, mod256_add_two]; rfl
  | jmp | jze => rfl

/-- `kind(op)` of R90 reads each kind from its own opcode byte. -/
theorem ninetyKind_opcodeByte (kind : Kind) : ninetyKind (opcodeByte (.twoByte kind)).toNat = some kind := by
  cases kind <;> rfl

theorem ninetyKind_illegal {n : Nat} (h : 8 ≤ n) : ninetyKind n = none := by
  unfold ninetyKind
  repeat rw [if_neg (by omega)]

theorem ninetyFetch_nop (hb : memRead s.pc s = 0x00#8) : ninetyFetch s = advancePc 1#8 s := by
  rw [ninetyFetch, hb, mod256_add_one]
  rfl

theorem ninetyFetch_fault (cause : FaultCause)
    (hb : memRead s.pc s = 0x04#8 ∨ 8 ≤ (memRead s.pc s).toNat) :
    ninetyFetch s = raiseMachineFault cause s := by
  obtain hb | hb := hb
  · rw [ninetyFetch, hb]; rfl
  · rw [ninetyFetch, if_neg (by omega), if_neg (by omega), ninetyKind_illegal hb]; rfl

theorem ninetyFetch_twoByte (hb : memRead s.pc s = opcodeByte (.twoByte kind)) :
    ninetyFetch s =
      setInflight (some { kind := kind, step := .step0, operand := memRead (s.pc + 1#8) s }) s := by
  have h0 : (opcodeByte (.twoByte kind)).toNat ≠ 0x00 := by cases kind <;> decide
  have h4 : (opcodeByte (.twoByte kind)).toNat ≠ 0x04 := by cases kind <;> decide
  rw [ninetyFetch, hb, if_neg h0, if_neg h4, ninetyKind_opcodeByte, next_address]
  rfl

theorem ninety_fetch (he : s.error = false) (hi : s.inflight = none) : ninety mode s = ninetyFetch s := by
  simp [ninety, he, hi]

/-- A tick with a record in flight, as R90 writes it, in the model's own operations. -/
theorem ninety_inflight {r : Inflight} (he : s.error = false) (hi : s.inflight = some r) :
    ninety mode s =
      if r.step = .step0 then
        if r.kind = .jze ∧ s.acc ≠ 0#8 then setInflight none (advancePc 2#8 s)
        else setInflight (some { r with step := .step1 }) s
      else setInflight none (finalEffect mode r.kind r.operand s) := by
  have hne : ¬ s.error = true := Bool.eq_false_iff.1 he
  rw [ninety, if_neg hne, hi, finalEffect_eq_ninetyEffect, mod256_add_two]
  rfl

/-- Each case of a tick is what R90 computes. -/
theorem ninety_of_tickCase (h : TickCase mode s t) : ninety mode s = t := by
  cases h with
  | halted he => rw [ninety, if_pos he]
  | nop he hi hb => rw [ninety_fetch he hi, ninetyFetch_nop hb]
  | fault cause he hi hb => rw [ninety_fetch he hi, ninetyFetch_fault cause hb]
  | fetch kind he hi hb => rw [ninety_fetch he hi, ninetyFetch_twoByte hb]
  | pend r he hi h0 hp => rw [ninety_inflight he hi, if_pos h0, if_neg hp]
  | skip r he hi h0 hp => rw [ninety_inflight he hi, if_pos h0, if_pos hp]
  | final r he hi h1 => rw [ninety_inflight he hi, h1, if_neg (by decide)]

/-- Each case of a tick is what the machine does at the spec's default parameters. -/
theorem step_of_tickCase (h : TickCase .original s t) : step s = .next t := by
  rw [← stepIn_config]
  exact stepIn_of_tickCase (by decide) h

/-- The machine that is not Halted moves on: the tick moves `pc`, raises `error`, or changes the record. -/
theorem ne_of_tickCase (h : TickCase mode s t) (he : s.error = false) : t ≠ s := by
  intro hts
  cases h with
  | halted he' => exact absurd (he.symm.trans he') Bool.false_ne_true
  | nop => exact byte_ne_add_one s.pc (congrArg State.pc hts)
  | fault => exact absurd (he.symm.trans (congrArg State.error hts).symm) Bool.false_ne_true
  | fetch kind _ hi => exact nomatch hi.symm.trans (congrArg State.inflight hts).symm
  | skip r _ hi => exact nomatch hi.symm.trans (congrArg State.inflight hts).symm
  | final r _ hi => exact nomatch hi.symm.trans (congrArg State.inflight hts).symm
  | pend r _ hi h0 =>
    have hr : some { r with step := .step1 } = some r := (congrArg State.inflight hts).trans hi
    have h1 : StepIndex.step1 = r.step := congrArg Inflight.step (Option.some.inj hr)
    exact nomatch h1.trans h0

end RuleNinety

/-- Settles O19: each case of a tick is the matching branch of R90's function. -/
theorem tickIsTheFunctionOfRule90 : Obligations.TickIsTheFunctionOfRule90 := by
  have hcfg (cfg : Config) (s : State) (h : cfg.wellFormed = true) :
      stepIn cfg s = .next (ninety cfg.flagMode s) := by
    obtain ⟨t, ht, hc⟩ := exists_tickCase h s
    rw [ht, ninety_of_tickCase hc]
  refine ⟨hcfg, fun s => ?_⟩
  rw [← stepIn_config]
  exact hcfg config s (by decide)

/-- Settles O20: every tick is one of the cases, and each but the Halted one changes the state. -/
theorem everyTickMakesProgress : Obligations.EveryTickMakesProgress := by
  intro cfg s hcfg
  obtain ⟨t, ht, hc⟩ := exists_tickCase hcfg s
  exact ⟨t, ht, ne_of_tickCase hc⟩

section Runs

variable {cfg : Config} {s t : State} {r : Inflight}

/-- A run begins with the case of its first tick. -/
theorem run_of_tickCase (hcfg : cfg.wellFormed = true) (h : TickCase cfg.flagMode s t) (n : Nat) :
    Host.Core.run (coreIn cfg) (n + 1) s = Host.Core.run (coreIn cfg) n t :=
  run_succ (M := coreIn cfg) n (stepIn_of_tickCase hcfg h)

/-- A final step neither reads the record nor writes it. -/
theorem finalEffect_setInflight (mode : FlagMode) (kind : Kind) (k : Byte) (r : Option Inflight) (s : State) :
    finalEffect mode kind k (setInflight r s) = setInflight r (finalEffect mode kind k s) := by
  cases kind with
  | add | sub => cases mode <;> rfl
  | _ => rfl

/-- No final step touches the record before its removal. -/
@[simp] theorem finalEffect_inflight (mode : FlagMode) (kind : Kind) (k : Byte) (s : State) :
    (finalEffect mode kind k s).inflight = s.inflight := by
  cases kind <;> simp [finalEffect, flagsAdd_rest, flagsSub_rest]

/-- The operand step and the final step together: the whole effect, with the record removed. -/
theorem run_two_of_inflight (hcfg : cfg.wellFormed = true) (he : s.error = false) (hi : s.inflight = some r)
    (h0 : r.step = .step0) (hp : ¬ (r.kind = .jze ∧ s.acc ≠ 0#8)) :
    Host.Core.run (coreIn cfg) 2 s =
      .next (setInflight none (finalEffect cfg.flagMode r.kind r.operand s)) := by
  have hfinal : TickCase cfg.flagMode (setInflight (some { r with step := .step1 }) s) _ :=
    .final { r with step := .step1 } he rfl rfl
  rw [run_of_tickCase hcfg (.pend r he hi h0 hp), run_of_tickCase hcfg hfinal, finalEffect_setInflight]
  rfl

end Runs

/-- Settles O23: by the step of the record, and at step 0 by whether it is a JZE not taken, which completes at once. -/
theorem inFlightInstructionRunsToCompletion : Obligations.InFlightInstructionRunsToCompletion := by
  intro cfg s r hcfg he hi
  have heffect : setInflight none (finalEffect cfg.flagMode r.kind r.operand s) =
      { ninetyEffect cfg.flagMode r.kind r.operand s with inflight := none } :=
    congrArg (setInflight none) (finalEffect_eq_ninetyEffect _ _ _ _)
  cases hr : r.step with
  | step1 =>
    have hc : TickCase cfg.flagMode s _ := .final r he hi hr
    exact ⟨⟨_, stepIn_of_tickCase hcfg hc, .inr (.inl ⟨rfl, heffect⟩)⟩,
      1, _, by decide, by decide, run_of_tickCase hcfg hc 0, .inl ⟨fun h => (nomatch h.1), heffect⟩⟩
  | step0 =>
    by_cases hp : r.kind = .jze ∧ s.acc ≠ 0#8
    · have hc : TickCase cfg.flagMode s _ := .skip r he hi hr hp
      have hskip : setInflight none (advancePc 2#8 s) =
          { s with pc := mod256 (s.pc.toNat + 2), inflight := none } := by
        rw [mod256_add_two]
        rfl
      exact ⟨⟨_, stepIn_of_tickCase hcfg hc, .inr (.inr ⟨rfl, hp.1, hp.2, hskip⟩)⟩,
        1, _, by decide, by decide, run_of_tickCase hcfg hc 0, .inr ⟨rfl, hp.1, hp.2, hskip⟩⟩
    · exact ⟨⟨_, stepIn_of_tickCase hcfg (.pend r he hi hr hp), .inl ⟨rfl, hp, rfl⟩⟩,
        2, _, by decide, by decide, run_two_of_inflight hcfg he hi hr hp, .inl ⟨fun h => hp h.2, heffect⟩⟩

section Instructions

variable {cfg : Config} {kind : Kind} {i : Instr} {rest : List Byte} {s : State}

/-- The instruction decoded at `pc`, by the opcode byte found there. -/
theorem opcode_of_decode_fetchBytes (hd : decode (fetchBytes s) = .ok (i, rest)) :
    (i = .nop ∧ memRead s.pc s = 0x00#8) ∨ (i = .halt ∧ memRead s.pc s = 0x04#8) ∨
      ∃ kind, i = Kind.toInstr kind (memRead (s.pc + 1#8) s) ∧ memRead s.pc s = opcodeByte (.twoByte kind) := by
  obtain ⟨rfl, hb⟩ | ⟨rfl, hb⟩ | ⟨kind, k, rfl, hb⟩ := decode_ok_cases hd
  · exact .inl ⟨rfl, (List.cons.inj hb).1⟩
  · exact .inr (.inl ⟨rfl, (List.cons.inj hb).1⟩)
  · obtain ⟨hop, hrest⟩ := List.cons.inj hb
    obtain ⟨hk, -⟩ := List.cons.inj hrest
    exact .inr (.inr ⟨kind, by rw [hk], hop⟩)

/-- R87 for the two-byte instructions: only a JZE not taken completes in its operand step. -/
theorem ticks_toInstr (kind : Kind) (k : Byte) (s : State) :
    ticks (kind.toInstr k) s = if kind = .jze ∧ s.acc ≠ 0#8 then 2 else 3 := by
  cases kind <;> simp [Kind.toInstr, ticks, ite_not]

theorem effect_toInstr (mode : FlagMode) (kind : Kind) (k : Byte) (s : State) :
    effect mode (kind.toInstr k) s =
      if kind = .jze ∧ s.acc ≠ 0#8 then advancePc 2#8 s else finalEffect mode kind k s := by
  rw [finalEffect_eq_ninetyEffect]
  cases kind with
  | jze =>
    simp only [Kind.toInstr, effect, mod256_add_two, ne_eq, true_and, ite_not]
    rfl
  | _ => rfl

/-- No whole effect touches the record. -/
@[simp] theorem effect_inflight (mode : FlagMode) (i : Instr) (s : State) :
    (effect mode i s).inflight = s.inflight := by
  obtain rfl | rfl | ⟨kind, k, rfl⟩ := instr_cases i
  · rfl
  · rfl
  · rw [effect_toInstr]
    split
    · rfl
    · exact finalEffect_inflight mode kind k s

theorem setInflight_eq_self {r : Option Inflight} (h : s.inflight = r) : setInflight r s = s := by
  subst h
  rfl

/-- The state after the fetch tick of a two-byte instruction (R82). -/
abbrev fetched (kind : Kind) (s : State) : State :=
  setInflight (some { kind := kind, step := .step0, operand := memRead (s.pc + 1#8) s }) s

/-- The run of a two-byte instruction, from its fetch tick to its completion. -/
theorem run_twoByte (hcfg : cfg.wellFormed = true) (he : s.error = false) (hi : s.inflight = none)
    (hb : memRead s.pc s = opcodeByte (.twoByte kind)) :
    Host.Core.run (coreIn cfg) (ticks (kind.toInstr (memRead (s.pc + 1#8) s)) s) s =
      .next (effect cfg.flagMode (kind.toInstr (memRead (s.pc + 1#8) s)) s) := by
  have hfetch : TickCase cfg.flagMode s (fetched kind s) := .fetch kind he hi hb
  rw [← setInflight_eq_self ((effect_inflight _ _ s).trans hi), ticks_toInstr, effect_toInstr]
  split
  · next hp =>
    have hskip : TickCase cfg.flagMode (fetched kind s) _ := .skip _ he rfl rfl hp
    exact (run_of_tickCase hcfg hfetch 1).trans (run_of_tickCase hcfg hskip 0)
  · next hp =>
    have hrest := run_two_of_inflight (s := fetched kind s) hcfg he rfl rfl hp
    rw [finalEffect_setInflight] at hrest
    exact (run_of_tickCase hcfg hfetch 2).trans hrest

/-- After the ticks of R87 the decoded instruction has had its whole effect. -/
theorem run_ticks (hcfg : cfg.wellFormed = true) (he : s.error = false) (hi : s.inflight = none)
    (hd : decode (fetchBytes s) = .ok (i, rest)) :
    Host.Core.run (coreIn cfg) (ticks i s) s = .next (effect cfg.flagMode i s) := by
  obtain ⟨rfl, hb⟩ | ⟨rfl, hb⟩ | ⟨kind, rfl, hb⟩ := opcode_of_decode_fetchBytes hd
  · rw [effect, mod256_add_one]
    exact run_of_tickCase hcfg (.nop he hi hb) 0
  · exact run_of_tickCase hcfg (.fault .halt he hi (.inl hb)) 0
  · exact run_twoByte hcfg he hi hb

/-- Before its last tick the decoded instruction has only put a record in flight. -/
theorem run_lt_ticks (hcfg : cfg.wellFormed = true) (he : s.error = false) (hi : s.inflight = none)
    (hd : decode (fetchBytes s) = .ok (i, rest)) {n : Nat} (hn : 0 < n) (hlt : n < ticks i s) :
    ∃ r, Host.Core.run (coreIn cfg) n s = .next (setInflight (some r) s) := by
  obtain ⟨rfl, hb⟩ | ⟨rfl, hb⟩ | ⟨kind, rfl, hb⟩ := opcode_of_decode_fetchBytes hd
  · exact absurd hn (Nat.not_lt.2 (Nat.le_of_lt_succ hlt))
  · exact absurd hn (Nat.not_lt.2 (Nat.le_of_lt_succ hlt))
  · have hfetch : TickCase cfg.flagMode s (fetched kind s) := .fetch kind he hi hb
    rw [ticks_toInstr] at hlt
    obtain rfl | ⟨rfl, hp⟩ : n = 1 ∨ n = 2 ∧ ¬ (kind = .jze ∧ s.acc ≠ 0#8) := by
      split at hlt
      · exact .inl (by omega)
      · next hp =>
        obtain h1 | h2 : n = 1 ∨ n = 2 := by omega
        · exact .inl h1
        · exact .inr ⟨h2, hp⟩
    · exact ⟨_, run_of_tickCase hcfg hfetch 0⟩
    · have hpend : TickCase cfg.flagMode (fetched kind s) _ := .pend _ he rfl rfl hp
      exact ⟨_, (run_of_tickCase hcfg hfetch 1).trans (run_of_tickCase hcfg hpend 0)⟩

/-- An instruction of the machine a program sees leaves nothing in flight that was not. -/
@[simp] theorem isaStep_inflight (mode : FlagMode) (s : State) : (isaStep mode s).2.inflight = s.inflight := by
  unfold isaStep
  split
  · rfl
  · split
    · exact effect_inflight _ _ _
    · rfl

/-- The machine of ticks runs one instruction, or one illegal byte, of the machine a program sees. -/
theorem run_isaStep (hcfg : cfg.wellFormed = true) (hi : s.inflight = none) :
    Host.Core.run (coreIn cfg) (isaStep cfg.flagMode s).1 s = .next (isaStep cfg.flagMode s).2 := by
  unfold isaStep
  split
  · rfl
  · next he =>
    have he : s.error = false := Bool.eq_false_iff.2 he
    split
    · next i rest hd => exact run_ticks hcfg he hi hd
    · next e hd =>
      obtain ⟨-, h⟩ | ⟨-, h⟩ | ⟨kind, -, h⟩ | ⟨hb, -⟩ := decode_fetchBytes_cases s
      · cases hd.symm.trans h
      · cases hd.symm.trans h
      · cases hd.symm.trans h
      · exact run_of_tickCase hcfg (.fault .illegalOpcode he hi (.inr hb)) 0

end Instructions

/-- Settles O21: by the run of the decoded instruction, and its runs cut short. -/
theorem effectIsVisibleAtTheLastTickOnly : Obligations.EffectIsVisibleAtTheLastTickOnly := by
  intro cfg s i rest hcfg he hi hd
  exact ⟨run_ticks hcfg he hi hd, (effect_inflight _ _ _).trans hi,
    fun n hn hlt => run_lt_ticks hcfg he hi hd hn hlt⟩

/-- Settles O22: by induction on the instructions, each run from a state with nothing in flight to another. -/
theorem tickMachineRefinesInstructionMachine : Obligations.TickMachineRefinesInstructionMachine := by
  intro cfg n s hcfg hi
  induction n generalizing s with
  | zero => rfl
  | succ n ih =>
    rw [isaRun, run_add (M := coreIn cfg) _ _ (run_isaStep hcfg hi)]
    exact ih _ ((isaStep_inflight _ _).trans hi)

section PlacedWord

variable {s : State} {i : Instr}

/-- The fetch tick of a machine with two bytes placed for it decodes exactly these. -/
theorem fetchBytes_placeAtFetch (hm : s.mem.wf = true) (b : Byte × Byte) :
    fetchBytes (placeAtFetch b s) = [b.1, b.2] := by
  have hwf : (memWrite s.pc b.1 { s with error := false, inflight := none }).mem.wf = true := write_wf hm _ _
  obtain ⟨-, -, hpc, -⟩ := placeAtFetch_ready b s
  rw [fetchBytes, hpc, placeAtFetch, memRead_memWrite hwf, if_neg (byte_ne_add_one s.pc).symm,
    memRead_memWrite (s := { s with error := false, inflight := none }) hm, if_pos rfl, memRead_memWrite hwf,
    if_pos rfl]

theorem decode_of_decodeTableWord {nbits w : Nat} (h : decodeTableWord nbits w = some i) :
    ∃ rest, decode [(tableBytes nbits w).1, (tableBytes nbits w).2] = .ok (i, rest) := by
  unfold decodeTableWord at h
  split at h
  · next j rest hd =>
    cases h
    exact ⟨rest, hd⟩
  · cases h

/-- A fetch tick runs the instruction decoded at `pc`. -/
theorem step_of_decode {rest : List Byte} (he : s.error = false) (hi : s.inflight = none)
    (hd : decode (fetchBytes s) = .ok (i, rest)) : step s = exec i s :=
  (tickWith_fetch he hi).trans (fetchTick_ok hd)

end PlacedWord

/-- Settles O13: the placed bytes are the ones the next tick decodes, since the two cells are distinct. -/
theorem placedWordRunsNext : Obligations.PlacedWordRunsNext := by
  intro s nbits w i hm hw
  obtain ⟨rest, hd⟩ := decode_of_decodeTableWord hw
  have hfetch : decode (fetchBytes (s.withFetchWord nbits w)) = .ok (i, rest) := by
    rw [State.withFetchWord, fetchBytes_placeAtFetch hm, hd]
  exact ⟨step_of_decode rfl rfl hfetch, rfl, rfl, rfl, rfl⟩

/-- Settles O12: with nothing in flight by the fetch tick, else by the record. -/
theorem stepRunsTheCurrentInstruction : Obligations.StepRunsTheCurrentInstruction :=
  ⟨fun _ _ _ he hi _ hd => step_of_decode he hi hd, fun _ _ he hi => tickWith_advance he hi⟩

/-- Settles O15: each value of the opcode byte is a case of the fetch tick. -/
theorem fetchTickOfRule82 : Obligations.FetchTickOfRule82 := by
  intro s he hi
  refine ⟨fun hb => ?_, fun hb => step_of_tickCase (.fault .halt he hi (.inl hb)), fun op kind hmem hb => ?_,
    fun hb => step_of_tickCase (.fault .illegalOpcode he hi (.inr hb))⟩
  · rw [mod256_add_one]
    exact step_of_tickCase (.nop he hi hb)
  · have hop : op = opcodeByte (.twoByte kind) := by
      simp only [List.mem_cons, Prod.mk.injEq, List.not_mem_nil, or_false] at hmem
      obtain ⟨rfl, rfl⟩ | ⟨rfl, rfl⟩ | ⟨rfl, rfl⟩ | ⟨rfl, rfl⟩ | ⟨rfl, rfl⟩ | ⟨rfl, rfl⟩ := hmem <;> rfl
    rw [next_address]
    exact step_of_tickCase (.fetch kind he hi (hb.trans hop))

/-- Settles O17: the operand step pends, or completes a JZE that is not taken. -/
theorem operandStepOfRule85 : Obligations.OperandStepOfRule85 := by
  intro s kind k he hi
  refine ⟨fun hk => ?_, fun hp => ?_, ?_⟩
  · exact step_of_tickCase (.pend _ he hi rfl fun hp => hk hp.1)
  · rw [mod256_add_two]
    exact step_of_tickCase (.skip _ he hi rfl hp)
  · rintro ⟨rfl, ha⟩
    exact step_of_tickCase (.pend _ he hi rfl fun hp => hp.2 ha)

/-- Settles O18: the final step of each kind, with the arithmetic of the rule modulo 256. -/
theorem finalStepOfRule86 : Obligations.FinalStepOfRule86 := by
  intro s kind k he hi
  have hfinal : step s = .next (setInflight none (finalEffect .original kind k s)) :=
    step_of_tickCase (.final _ he hi rfl)
  rw [hfinal, mod256_add_two, mod256_add, mod256_sub]
  refine ⟨?_, ?_, ?_, ?_, ?_⟩
  · rintro rfl
    rfl
  · rintro rfl
    rfl
  · rintro rfl
    rfl
  · rintro rfl
    rfl
  · rintro (rfl | rfl) <;> rfl

end Sys2Proof.Proofs

/-! NOP: its one tick, in every configuration. -/

namespace Sys2Proof.Proofs

open Sys2Proof Sys2Proof.Machine Sys2Proof.Laws Sys2Proof.Safety

section Nop

variable (s : State)

/-- NOP's tick is the move of `pc` and nothing else (R100). -/
theorem exec_nop : exec .nop s = .next (advancePc 1#8 s) := rfl

/-- NOP does not depend on the two parameters (R5, R100). -/
theorem execIn_nop (cfg : Config) : execIn cfg .nop s = exec .nop s := rfl

end Nop

/-- Settles O36: the move of `pc` is the sum modulo 256, and the fetch tick that reads 0x00 makes the same move. -/
theorem nopOfRule100 : Obligations.NopOfRule100 := by
  refine ⟨decode_nop, fun s he hi => ⟨?_, execIn_nop s, fun hb => ?_⟩⟩
  · rw [mod256_add_one]
    exact exec_nop s
  · calc step s = .next (advancePc 1#8 s) := step_of_tickCase (.nop he hi hb)
      _ = exec .nop s := (exec_nop s).symm

end Sys2Proof.Proofs

/-! LD and ST: the three ticks of a two-byte instruction, then what the two final steps do to the accumulator and to the
memory. -/

namespace Sys2Proof.Proofs

open Sys2Proof Sys2Proof.Machine Sys2Proof.Laws Sys2Proof.Safety

section ThreeTicks

variable (kind : Kind) (k : Byte) {s : State}

/-- The first tick of a two-byte instruction puts its record in flight (R82). -/
theorem exec_of_idle (hi : s.inflight = none) :
    exec (kind.toInstr k) s = .next (setInflight (some { kind := kind, step := .step0, operand := k }) s) := by
  rw [exec_twoByte, twoByteTick_fetch _ _ _ hi]

/-- The second tick only raises the step, except for a JZE (R85). -/
theorem exec_of_step0 (hk : kind ≠ .jze)
    (hi : s.inflight = some { kind := kind, step := .step0, operand := k }) :
    exec (kind.toInstr k) s = .next (setInflight (some { kind := kind, step := .step1, operand := k }) s) := by
  rw [exec_twoByte, twoByteTick_pend _ _ _ hi rfl fun hp => hk hp.1]

/-- The third tick is the final step, which removes the record (R86). -/
theorem exec_of_step1 (hi : s.inflight = some { kind := kind, step := .step1, operand := k }) :
    exec (kind.toInstr k) s = .next (setInflight none (finalEffect .original kind k s)) := by
  rw [exec_twoByte, twoByteTick_final _ _ _ hi rfl]

end ThreeTicks

section LoadStore

variable (mode : FlagMode) (k : Byte) (s : State)

/-- LD does not depend on the two parameters (R5, R110). -/
theorem execIn_ld (cfg : Config) : execIn cfg (.ld k) s = exec (.ld k) s := rfl

/-- ST does not depend on the two parameters (R5, R111). -/
theorem execIn_st (cfg : Config) : execIn cfg (.st k) s = exec (.st k) s := rfl

/-- R110: LD copies the operand's cell to the accumulator and moves `pc` to the next instruction. -/
theorem finalEffect_ld : finalEffect mode .ld k s =
    { s with acc := s.mem.read (operandAddress k), pc := mod256 (s.pc.toNat + 2) } := by
  rw [mod256_add_two]
  rfl

/-- R111: ST copies the accumulator to the operand's cell and moves `pc` to the next instruction. -/
theorem finalEffect_st : finalEffect mode .st k s =
    { s with mem := s.mem.write (operandAddress k) s.acc, pc := mod256 (s.pc.toNat + 2) } := by
  rw [mod256_add_two]
  rfl

end LoadStore

/-- Settles O38: the three ticks of a two-byte instruction, and a read after the write of the third. -/
theorem stOfRule111 : Obligations.StOfRule111 := by
  refine fun k => ⟨decode_twoByte .st k, fun s _ hm =>
    ⟨exec_of_idle .st k, exec_of_step0 .st k (by decide), fun hi => ?_, execIn_st k s⟩⟩
  refine ⟨s.mem.write (operandAddress k) s.acc, ?_, write_wf hm _ _, ?_, fun a ha => ?_⟩
  · have hfinal := exec_of_step1 .st k hi
    rw [finalEffect_st] at hfinal
    exact hfinal
  · rw [read_write hm, if_pos rfl]
  · rw [read_write hm, if_neg ha]

/-- Settles O48: a tick of ST that is not its final step moves only `pc` and the record, and the final step writes the
operand's cell besides. -/
theorem frameOfSt : Obligations.FrameOfSt := by
  intro k s t hm h
  cases (exec_twoByte .st k s).symm.trans h
  obtain ⟨r, p, htick⟩ | ⟨r, hi, h1, htick⟩ := twoByteTick_cases .original .st k s
  · rw [htick]
    exact ⟨rfl, rfl, rfl, rfl, fun _ _ => rfl, fun _ _ => rfl⟩
  · rw [htick, finalEffect_st]
    refine ⟨rfl, rfl, rfl, rfl, fun a ha => ?_, fun h0 => ?_⟩
    · exact (read_write hm _ _ _).trans (if_neg ha)
    · cases h1.symm.trans (h0 r hi)

/-- Settles O37: the three ticks of a two-byte instruction, the third with the final step of LD. -/
theorem ldOfRule110 : Obligations.LdOfRule110 := by
  refine fun k => ⟨decode_twoByte .ld k, fun s _ =>
    ⟨exec_of_idle .ld k, exec_of_step0 .ld k (by decide), fun hi => ?_, execIn_ld k s⟩⟩
  have hfinal := exec_of_step1 .ld k hi
  rw [finalEffect_ld] at hfinal
  exact hfinal

end Sys2Proof.Proofs

/-! ADD and SUB: their three ticks in every configuration, the laws of their results, and the two flags they write in
`FLAG_MODE = arith`. -/

namespace Sys2Proof.Proofs

open Sys2Proof Sys2Proof.Machine Sys2Proof.Laws Sys2Proof.Safety

section FinalTick

variable (cfg : Config) (kind : Kind) (k : Byte) {s : State}

/-- The final tick of a two-byte instruction, in any configuration. -/
theorem execIn_of_step1 (hi : s.inflight = some { kind := kind, step := .step1, operand := k }) :
    execIn cfg (kind.toInstr k) s = .next (setInflight none (finalEffect cfg.flagMode kind k s)) := by
  rw [execIn_twoByte, twoByteTick_final _ _ _ hi rfl]

/-- The final tick of a two-byte instruction, with its effect as R90 writes it out. -/
theorem execIn_of_step1_ninety (hi : s.inflight = some { kind := kind, step := .step1, operand := k }) :
    execIn cfg (kind.toInstr k) s = .next (setInflight none (ninetyEffect cfg.flagMode kind k s)) := by
  rw [execIn_of_step1 cfg kind k hi, finalEffect_eq_ninetyEffect]

end FinalTick

/-- Settles O39: the three ticks of a two-byte instruction; the third is the ADD of R90, which in `FLAG_MODE = original`
passes the flags on. -/
theorem addOfRule120 : Obligations.AddOfRule120 := by
  refine fun k => ⟨decode_twoByte .add k, fun s _ =>
    ⟨exec_of_idle .add k, exec_of_step0 .add k (by decide), fun hi => ?_⟩⟩
  have hfinal (cfg : Config) := execIn_of_step1_ninety cfg .add k hi
  exact ⟨(execIn_config (.add k) s).symm.trans (hfinal config), hfinal⟩

/-- Settles O40: the three ticks of a two-byte instruction; the third is the SUB of R90, which in `FLAG_MODE = original`
passes the flags on. -/
theorem subOfRule121 : Obligations.SubOfRule121 := by
  refine fun k => ⟨decode_twoByte .sub k, fun s _ =>
    ⟨exec_of_idle .sub k, exec_of_step0 .sub k (by decide), fun hi => ?_⟩⟩
  have hfinal (cfg : Config) := execIn_of_step1_ninety cfg .sub k hi
  exact ⟨(execIn_config (.sub k) s).symm.trans (hfinal config), hfinal⟩

section Results

variable (mode : FlagMode) (k : Byte) (s : State)

@[simp] theorem finalEffect_add_acc : (finalEffect mode .add k s).acc = s.acc + s.mem.read k.toNat := rfl

@[simp] theorem finalEffect_sub_acc : (finalEffect mode .sub k s).acc = s.acc - s.mem.read k.toNat := rfl

/-- The difference of two bytes is the mathematical difference modulo 256 (R122). -/
theorem byte_sub_toNat_cast (a m : Byte) : ((a - m).toNat : Int) = ((a.toNat : Int) - m.toNat) % 256 := by
  have hm := m.isLt
  rw [BitVec.toNat_sub]
  omega

/-- The byte `256 - m` is the negative of `m` (R122). -/
theorem byte_eq_neg {b m : Byte} (h : b.toNat = 256 - m.toNat) : b = -m := by
  have hb := b.isLt
  apply BitVec.eq_of_toNat_eq
  rw [BitVec.toNat_neg]
  omega

end Results

/-- Settles O41: the results are the sum and the difference of bytes, so that the laws are those of bytes. -/
theorem arithmeticIsModulo256 : Obligations.ArithmeticIsModulo256 := by
  intro cfg k s u hs hu
  refine ⟨_, _, execIn_of_step1 cfg .add k hs, execIn_of_step1 cfg .sub k hu, ?_⟩
  simp only [setInflight_acc, setInflight_error, finalEffect_error, finalEffect_add_acc, finalEffect_sub_acc]
  refine ⟨BitVec.toNat_add _ _, byte_sub_toNat_cast _ _, trivial, trivial, ?_, ?_, ?_⟩
  · intro v v' hv hacc hread hexec
    cases (execIn_of_step1 cfg .add k (hv.trans hs)).symm.trans hexec
    rw [setInflight_acc, finalEffect_add_acc, hacc, hread, BitVec.add_comm]
  · intro hacc hread
    rw [hacc, hread, BitVec.add_sub_cancel]
  · intro _ hacc hread
    rw [hacc, byte_eq_neg hread, BitVec.sub_eq_add_neg]

section ArithFlags

variable (mode : FlagMode) (kind : Kind) (k : Byte) (s : State)

/-- R123: ADD sets `overflow` on a carry, and `zero` on a result of 0. -/
theorem finalEffect_add_flags :
    ((finalEffect .arith .add k s).overflow = true ↔ s.acc.toNat + (s.mem.read k.toNat).toNat > 255) ∧
    ((finalEffect .arith .add k s).zero = true ↔ (s.acc.toNat + (s.mem.read k.toNat).toNat) % 256 = 0) := by
  simp [finalEffect, flagsAdd_arith, operandRead_eq]

/-- R123: SUB sets `overflow` on a borrow, and `zero` on equal inputs. -/
theorem finalEffect_sub_flags :
    ((finalEffect .arith .sub k s).overflow = true ↔ s.acc.toNat < (s.mem.read k.toNat).toNat) ∧
    ((finalEffect .arith .sub k s).zero = true ↔ s.acc = s.mem.read k.toNat) := by
  simp [finalEffect, flagsSub_arith, operandRead_eq]

/-- Only ADD and SUB write the flags (R123). -/
theorem flag_writer_of_finalEffect
    (h : ((finalEffect mode kind k s).overflow, (finalEffect mode kind k s).zero) ≠ (s.overflow, s.zero)) :
    kind = .add ∨ kind = .sub := by
  cases kind with
  | add => exact .inl rfl
  | sub => exact .inr rfl
  | ld | st | jmp | jze => exact absurd rfl h

/-- A tick of a two-byte instruction that changes a flag is the final step of an ADD or SUB. -/
theorem flag_writer_of_twoByteTick
    (h : ((twoByteTick mode kind k s).overflow, (twoByteTick mode kind k s).zero) ≠ (s.overflow, s.zero)) :
    (kind = .add ∨ kind = .sub) ∧ ∃ r, s.inflight = some r ∧ r.step = .step1 := by
  obtain ⟨r, p, htick⟩ | ⟨r, hi, h1, htick⟩ := twoByteTick_cases mode kind k s
  · rw [htick] at h
    exact absurd rfl h
  · rw [htick] at h
    exact ⟨flag_writer_of_finalEffect mode kind k s h, r, hi, h1⟩

/-- Other flags before a tick of a two-byte instruction change nothing but the flags after it (R123). -/
theorem twoByteTick_setFlags (o z : Bool) :
    ∃ o' z', twoByteTick mode kind k (setFlags o z s) = setFlags o' z' (twoByteTick mode kind k s) := by
  cases hi : s.inflight with
  | none =>
    have hi' : (setFlags o z s).inflight = none := hi
    exact ⟨o, z, by rw [twoByteTick_fetch _ _ _ hi, twoByteTick_fetch _ _ _ hi']; rfl⟩
  | some r =>
    have hi' : (setFlags o z s).inflight = some r := hi
    cases hr : r.step with
    | step0 =>
      by_cases hp : kind = .jze ∧ s.acc ≠ 0#8
      · exact ⟨o, z, by rw [twoByteTick_skip _ _ _ hi hr hp, twoByteTick_skip _ _ _ hi' hr hp]; rfl⟩
      · exact ⟨o, z, by rw [twoByteTick_pend _ _ _ hi hr hp, twoByteTick_pend _ _ _ hi' hr hp]; rfl⟩
    | step1 =>
      rw [twoByteTick_final _ _ _ hi hr, twoByteTick_final _ _ _ hi' hr]
      obtain ⟨-, -, hu⟩ | ⟨-, hu⟩ := finalEffect_setFlags mode kind k s o z
      · exact ⟨o, z, by rw [hu]; rfl⟩
      · exact ⟨(finalEffect mode kind k s).overflow, (finalEffect mode kind k s).zero, by rw [hu]; rfl⟩

variable (cfg : Config) (i : Instr)

/-- An instruction's tick that changes a flag is the final step of an ADD or SUB (R123). -/
theorem flag_writer_of_execIn {t : State} (ht : execIn cfg i s = .next t)
    (h : (t.overflow, t.zero) ≠ (s.overflow, s.zero)) :
    ∃ k r, (i = .add k ∨ i = .sub k) ∧ s.inflight = some r ∧ r.step = .step1 := by
  obtain rfl | rfl | ⟨kind, k, rfl⟩ := instr_cases i
  · cases ht
    exact absurd rfl h
  · cases ht
    exact absurd rfl h
  · rw [execIn_twoByte] at ht
    cases ht
    obtain ⟨rfl | rfl, r, hi, h1⟩ := flag_writer_of_twoByteTick _ kind k s h
    · exact ⟨k, r, .inl rfl, hi, h1⟩
    · exact ⟨k, r, .inr rfl, hi, h1⟩

/-- No instruction's tick reads a flag (R123). -/
theorem execIn_setFlags (o z : Bool) :
    ∃ t o' z', execIn cfg i s = .next t ∧ execIn cfg i (setFlags o z s) = .next (setFlags o' z' t) := by
  obtain rfl | rfl | ⟨kind, k, rfl⟩ := instr_cases i
  · exact ⟨_, o, z, rfl, rfl⟩
  · exact ⟨_, o, z, rfl, rfl⟩
  · obtain ⟨o', z', hu⟩ := twoByteTick_setFlags cfg.flagMode kind k s o z
    exact ⟨_, o', z', execIn_twoByte kind k cfg s, by rw [execIn_twoByte, hu]⟩

end ArithFlags

/-- Settles O42: the flags of the two final steps, then the one place where a tick writes them and that none reads
them. -/
theorem arithModeFlagsOfRule123 : Obligations.ArithModeFlagsOfRule123 := by
  intro cfg hm
  refine ⟨fun k s hi => ?_, fun k s hi => ?_, fun i s t => flag_writer_of_execIn s cfg i,
    fun _ => ⟨rfl, rfl⟩, fun i s o z => ?_⟩
  · have hfinal := execIn_of_step1 cfg .add k hi
    rw [hm] at hfinal
    exact ⟨_, hfinal, finalEffect_add_flags k s⟩
  · have hfinal := execIn_of_step1 cfg .sub k hi
    rw [hm] at hfinal
    exact ⟨_, hfinal, finalEffect_sub_flags k s⟩
  · obtain ⟨t, o', z', ht, hu⟩ := execIn_setFlags s cfg i o z
    exact ⟨t, setFlags o' z' t, ht, hu, rfl⟩

end Sys2Proof.Proofs

/-! JMP and JZE: the jump of the final step, the two answers of JZE's operand step, and that neither depends on the
configuration. -/

namespace Sys2Proof.Proofs

open Sys2Proof Sys2Proof.Machine Sys2Proof.Laws Sys2Proof.Safety

section Jumps

variable (mode : FlagMode) (k : Byte) {s : State}

/-- JMP does not depend on the two parameters (R5, R130). -/
theorem execIn_jmp (cfg : Config) (s : State) : execIn cfg (.jmp k) s = exec (.jmp k) s := rfl

/-- JZE does not depend on the two parameters (R5, R131). -/
theorem execIn_jze (cfg : Config) (s : State) : execIn cfg (.jze k) s = exec (.jze k) s := rfl

/-- R130: JMP sets `pc` to the operand. -/
theorem finalEffect_jmp (s : State) : finalEffect mode .jmp k s = setPc k s := rfl

/-- R131: a JZE that is taken sets `pc` to the operand. -/
theorem finalEffect_jze (s : State) : finalEffect mode .jze k s = setPc k s := rfl

/-- The condition of JZE (R131): all eight bits of the accumulator are 0. -/
theorem acc_eq_zero_iff (s : State) : s.acc = 0#8 ↔ s.acc.toNat = 0 := BitVec.toNat_eq

/-- A JZE that is not taken completes in its operand step (R85, R131). -/
theorem exec_jze_notTaken (hi : s.inflight = some { kind := .jze, step := .step0, operand := k })
    (ha : s.acc ≠ 0#8) : exec (.jze k) s = .next (setInflight none (advancePc 2#8 s)) := by
  have htick := twoByteTick_skip .original .jze k hi rfl ⟨rfl, ha⟩
  exact (exec_twoByte .jze k s).trans (congrArg _ htick)

/-- The operand step of a JZE that is taken only raises the step (R85, R131). -/
theorem exec_jze_taken (hi : s.inflight = some { kind := .jze, step := .step0, operand := k })
    (ha : s.acc = 0#8) :
    exec (.jze k) s = .next (setInflight (some { kind := .jze, step := .step1, operand := k }) s) := by
  have htick := twoByteTick_pend .original .jze k hi rfl fun hskip => hskip.2 ha
  exact (exec_twoByte .jze k s).trans (congrArg _ htick)

end Jumps

/-- Settles O44: the three ticks of a two-byte instruction, the third with the jump of JMP. -/
theorem jmpOfRule130 : Obligations.JmpOfRule130 := by
  refine fun k => ⟨decode_twoByte .jmp k, fun s _ =>
    ⟨exec_of_idle .jmp k, exec_of_step0 .jmp k (by decide), fun hi => ?_, fun cfg => execIn_jmp k cfg s⟩⟩
  have hfinal := exec_of_step1 .jmp k hi
  rw [finalEffect_jmp] at hfinal
  exact hfinal

/-- Settles O45: the ticks of a two-byte instruction, with the operand step split on the condition of JZE. -/
theorem jzeOfRule131 : Obligations.JzeOfRule131 := by
  refine fun k => ⟨decode_twoByte .jze k, fun s _ =>
    ⟨exec_of_idle .jze k, fun hi ha => ?_, fun hi ha => ?_, fun hi => ?_, fun cfg => execIn_jze k cfg s⟩⟩
  · rw [mod256_add_two]
    exact exec_jze_notTaken k hi (mt (acc_eq_zero_iff s).mp ha)
  · exact exec_jze_taken k hi ((acc_eq_zero_iff s).mpr ha)
  · have hfinal := exec_of_step1 .jze k hi
    rw [finalEffect_jze] at hfinal
    exact hfinal

end Sys2Proof.Proofs

/-! HALT: its one write, in every configuration, and the run of no-op ticks after it. -/

namespace Sys2Proof.Proofs

open Sys2Proof Sys2Proof.Machine Sys2Proof.Laws Sys2Proof.Safety

/-- A run stays in a state that a step leaves as it is. -/
theorem run_of_step_eq_self {M : Host.Core} {s : M.State} (h : M.step s = .next s) (n : Nat) :
    Host.Core.run M n s = .next s := by
  induction n with
  | zero => exact run_zero M s
  | succ n ih => exact (run_succ n h).trans ih

section Halt

variable {s : State}

/-- HALT raises `error` and nothing else (R140). -/
theorem exec_halt (s : State) : exec .halt s = .next (raiseMachineFault .halt s) := rfl

/-- HALT does not depend on the two parameters (R5, R140). -/
theorem execIn_halt (cfg : Config) (s : State) : execIn cfg .halt s = exec .halt s := rfl

/-- Ticks of a Halted machine change nothing (R140, R155). -/
theorem run_of_halted (he : s.error = true) (n : Nat) : Host.Core.run core n s = .next s :=
  run_of_step_eq_self (M := core) (tickWith_halted he) n

end Halt

/-- Settles O46: the write of `error`, the fetch tick that reads 0x04 and makes the same write, and the run of the Halted
machine. -/
theorem haltOfRule140 : Obligations.HaltOfRule140 := by
  refine ⟨decode_halt, fun s he hi => ⟨exec_halt s, fun cfg => execIn_halt cfg s, fun hb => ?_, run_of_halted rfl⟩⟩
  calc step s = .next (raiseMachineFault .halt s) := step_of_tickCase (.fault .halt he hi (.inl hb))
    _ = exec .halt s := (exec_halt s).symm

end Sys2Proof.Proofs

/-! The machine fault: its two causes and its one write, how the host tells the cause, and the Halted state it leads to,
which only `Reset` leaves. -/

namespace Sys2Proof.Proofs

open Sys2Proof Sys2Proof.Machine Sys2Proof.Laws Sys2Proof.Safety

section FaultEntry

variable {cfg : Config} {mode : FlagMode} {s t : State}

/-- A tick sets `error` only in a fetch tick that reads HALT or an illegal byte, and then makes that one write (R151,
R153). -/
theorem fault_of_tickCase (h : TickCase mode s t) (he : s.error = false) (ht : t.error = true) :
    s.inflight = none ∧ (memRead s.pc s = 0x04#8 ∨ 8 ≤ (memRead s.pc s).toNat) ∧ t = { s with error := true } := by
  cases h with
  | fault _ _ hi hb => exact ⟨hi, hb, rfl⟩
  | halted | nop | fetch | pend | skip => exact absurd (he.symm.trans ht) Bool.false_ne_true
  | final => rw [setInflight_error, finalEffect_error, he] at ht; cases ht

/-- `error` is set exactly by the two causes of R151. -/
theorem stepIn_error_iff (hs : stepIn cfg s = .next t) (he : s.error = false) :
    t.error = true ↔ s.inflight = none ∧ (memRead s.pc s = 0x04#8 ∨ 8 ≤ (memRead s.pc s).toNat) := by
  obtain ⟨hcfg, hc⟩ := tickCase_of_stepIn hs
  constructor
  · intro ht
    obtain ⟨hi, hb, -⟩ := fault_of_tickCase hc he ht
    exact ⟨hi, hb⟩
  · rintro ⟨hi, hb⟩
    rw [stepIn_of_tickCase hcfg (.fault .halt he hi hb)] at hs
    cases hs
    rfl

/-- A Halted machine's tick is a no-op in every configuration (R155). -/
theorem eq_of_stepIn_halted (he : s.error = true) (hs : stepIn cfg s = .next t) : t = s := by
  obtain ⟨hcfg, -⟩ := tickCase_of_stepIn hs
  rw [stepIn_of_tickCase hcfg (.halted he)] at hs
  cases hs
  rfl

end FaultEntry

section FaultCause

variable {s : State}

/-- With `error` set, the byte 0x04 at `pc` tells the host that HALT ran (R165). -/
theorem faultCause_halt (he : s.error = true) (hb : memRead s.pc s = 0x04#8) : faultCause s = some .halt := by
  rw [faultCause, if_pos he, if_pos hb]

/-- With `error` set, a byte from 0x08 up at `pc` tells the host that the byte was rejected (R165). -/
theorem faultCause_illegalOpcode (he : s.error = true) (hb : 8 ≤ (memRead s.pc s).toNat) :
    faultCause s = some .illegalOpcode := by
  have hne : memRead s.pc s ≠ 0x04#8 := fun h => absurd (h ▸ hb) (by decide)
  rw [faultCause, if_pos he, if_neg hne, if_pos hb]

end FaultCause

section LiveEvents

variable {cfg : Config} {e : Event} {s t : State} {sys : System} {r : Reply}

theorem tickSystem_live (hs : stepIn cfg s = .next t) : tickSystem cfg (.live s) = .next (.live t, .done) := by
  simp only [tickSystem, hs]

theorem wellFormed_of_handle {sys₀ : System} (h : handle cfg e sys₀ = .next (sys, r)) : cfg.wellFormed = true := by
  by_contra hcfg
  simp [handle, hcfg] at h

theorem hostWrite_live (cfg : Config) (a : Int) (v : Byte) (s : State) :
    ∃ m, (hostWrite cfg a v (.live s)).1 = .live { s with mem := m } := by
  cases hc : inCapacity cfg a with
  | false => exact ⟨s.mem, by rw [hostWrite_outside hc]⟩
  | true => exact ⟨_, by rw [hostWrite_inside hc]; rfl⟩

/-- What an answered event makes of a live system: a `Reset`, a tick, or at most another memory. -/
theorem handle_live_cases (h : handle cfg e (.live s) = .next (sys, r)) :
    (e = .reset ∧ sys = .live (resetEvent s)) ∨
    (∃ t, e = .tick ∧ sys = .live t ∧ stepIn cfg s = .next t) ∨
    ∃ m, sys = .live { s with mem := m } := by
  rw [handle_wellFormed (wellFormed_of_handle h)] at h
  cases e with
  | reset => cases h; exact .inl ⟨rfl, rfl⟩
  | tick =>
    obtain ⟨_, t, hsys, rfl, hs⟩ := tickSystem_next h
    cases hsys
    exact .inr (.inl ⟨t, rfl, rfl, hs⟩)
  | hostWrite a v =>
    obtain rfl : (hostWrite cfg a v (.live s)).1 = sys := congrArg Prod.fst (Host.Outcome.next.inj h)
    exact .inr (.inr (hostWrite_live cfg a v s))
  | hostRead a =>
    obtain rfl : (hostRead cfg a (.live s)).1 = sys := congrArg Prod.fst (Host.Outcome.next.inj h)
    exact .inr (.inr ⟨s.mem, hostRead_fst a⟩)
  | observe => exact .inr (.inr ⟨s.mem, observeSystem_next h⟩)

end LiveEvents

/-- Settles O6: every tick is one of the cases, each with a next state, and `Tick` passes it on. -/
theorem everyTickReturnsNothing : Obligations.EveryTickReturnsNothing := by
  intro cfg s hcfg
  obtain ⟨t, hs, -⟩ := exists_tickCase hcfg s
  exact ⟨t, hs, (handle_wellFormed hcfg .tick (.live s)).trans (tickSystem_live hs)⟩

/-- Settles O14: a tick of the Halted machine is a no-op, and the host's accesses and `Observe` reach no register. -/
theorem haltedUntilReset : Obligations.HaltedUntilReset := by
  intro s he
  refine ⟨tickWith_halted he, tickAccesses_halted he, run_of_halted he, fun cfg e sys r hne h => ?_⟩
  obtain ⟨hreset, -⟩ | ⟨t, -, rfl, hs⟩ | ⟨m, rfl⟩ := handle_live_cases h
  · exact absurd hreset hne
  · obtain rfl := eq_of_stepIn_halted he hs
    exact ⟨t, rfl, he, rfl, rfl⟩
  · exact ⟨_, rfl, he, rfl, rfl⟩

/-- Settles O25: the fault is one case of a tick, and of the other events `Reset` clears `error` and the rest keep it. -/
theorem faultHasTwoCausesAndOneEffect : Obligations.FaultHasTwoCausesAndOneEffect := by
  refine ⟨fun cfg s t hs he => ⟨stepIn_error_iff hs he, fun ht => ?_⟩, fun cfg e s t r hne h he => ?_⟩
  · obtain ⟨-, hc⟩ := tickCase_of_stepIn hs
    obtain ⟨-, -, h⟩ := fault_of_tickCase hc he ht
    exact h
  · obtain ⟨-, hsys⟩ | ⟨_, htick, -, -⟩ | ⟨m, hsys⟩ := handle_live_cases h
    · cases hsys; rfl
    · exact absurd htick hne
    · cases hsys; exact he

/-- Settles O27: the fault leaves `pc` and memory as they were, so the byte the host reads is the byte that was decoded. -/
theorem faultCauseIsReadFromMemory : Obligations.FaultCauseIsReadFromMemory := by
  intro cfg s t hs he ht
  obtain ⟨-, hc⟩ := tickCase_of_stepIn hs
  obtain ⟨-, hb | hb, rfl⟩ := fault_of_tickCase hc he ht
  · have hd : decode (fetchBytes s) = .ok (.halt, [memRead (s.pc + 1#8) s]) := by
      rw [fetchBytes, hb]
      exact decode_halt _
    rw [faultCause_halt ht hb, hd]
    simp
  · have hd : decode (fetchBytes s) = .error (.illegalOpcode (memRead s.pc s)) := decode_illegal hb _
    rw [faultCause_illegalOpcode ht hb, hd]
    simp

end Sys2Proof.Proofs

/-! `Reset` and what may fall between two ticks: `Reset` from any system, an ended run, an instruction cut short,
and a memory that changes while an instruction is in flight. -/

namespace Sys2Proof.Proofs

open Sys2Proof Sys2Proof.Machine Sys2Proof.Laws Sys2Proof.Safety

section Reset

/-- `Reset` makes every system live, and keeps nothing of it but the memory (R32, R180). -/
theorem resetSystem_eq_live (sys : System) :
    ∃ s : State, s.mem = sys.mem ∧ resetSystem sys = .live (resetEvent s) := by
  cases sys with
  | constructed m => exact ⟨{ State.reset with mem := m }, rfl, rfl⟩
  | live s => exact ⟨s, rfl, rfl⟩

/-- The tick after a `Reset` is a fetch tick (R180). -/
theorem stepIn_resetEvent {cfg : Config} (hcfg : cfg.wellFormed = true) (s : State) :
    stepIn cfg (resetEvent s) = fetchTick (execIn cfg) (resetEvent s) :=
  (stepIn_wellFormed hcfg _).trans (tickWith_fetch (resetEvent_error s) (resetEvent_inflight s))

/-- `Reset` clears the record, whatever it was. -/
theorem resetEvent_setInflight (r : Option Inflight) (s : State) :
    resetEvent (setInflight r s) = resetEvent s := rfl

end Reset

/-- Settles O1: the system after a `Reset` is live in a state of `resetEvent`, before the first `Reset` as well. -/
theorem resetGivesTheRuleValues : Obligations.ResetGivesTheRuleValues := by
  intro cfg sys hcfg
  obtain ⟨s, hmem, hreset⟩ := resetSystem_eq_live sys
  have hanswer : handle cfg .reset sys = .next (.live (resetEvent s), .done) := by
    rw [handle_wellFormed hcfg, hreset]
  exact ⟨resetEvent s, hanswer, rfl, rfl, rfl, rfl, rfl, rfl, hmem, stepIn_resetEvent hcfg s⟩

/-- Settles O26: the run goes on from the state it ended in, which every further tick leaves as it is. -/
theorem endedRunKeepsItsFinalState : Obligations.EndedRunKeepsItsFinalState := by
  intro cfg n m s t hcfg hrun hended
  rw [run_add (M := coreIn cfg) n m hrun]
  exact run_of_step_eq_self (M := coreIn cfg) (stepIn_of_tickCase hcfg (.halted hended)) m

/-- Settles O35: until its last tick an instruction changes nothing but the record, which `Reset` clears. -/
theorem resetDiscardsTheInstructionWithoutTrace : Obligations.ResetDiscardsTheInstructionWithoutTrace := by
  intro cfg s t i rest n hcfg he hi hd hlt hrun
  obtain ⟨r, rfl⟩ : ∃ r, t = setInflight r s := by
    obtain rfl | hn := Nat.eq_zero_or_pos n
    · cases hrun
      exact ⟨s.inflight, rfl⟩
    · obtain ⟨r, hr⟩ := run_lt_ticks hcfg he hi hd hn hlt
      exact ⟨some r, Host.Outcome.next.inj (hrun.symm.trans hr)⟩
  refine ⟨?_, rfl, rfl⟩
  rw [handle_wellFormed hcfg, handle_wellFormed hcfg, resetSystem, resetEvent_setInflight, resetSystem]

section ChangingMemory

variable {kind : Kind} {k : Byte} {s : State}

/-- A two-byte opcode is the opcode of one kind only. -/
theorem kind_eq_of_opcodeByte {kind' : Kind} (h : opcodeByte (.twoByte kind) = opcodeByte (.twoByte kind')) :
    kind = kind' := by
  have hop : some (Opcode.twoByte kind) = some (.twoByte kind') := by
    rw [← opcodeOfByte_opcodeByte, h, opcodeOfByte_opcodeByte]
  exact Opcode.twoByte.inj (Option.some.inj hop)

/-- `s` with the instruction `kind k` in flight, `step` its next step (R28). -/
def withRecord (kind : Kind) (step : StepIndex) (k : Byte) (s : State) : State :=
  setInflight (some { kind := kind, step := step, operand := k }) s

theorem step_withRecord_step0 (he : s.error = false) (hp : ¬ (kind = .jze ∧ s.acc ≠ 0#8)) :
    step (withRecord kind .step0 k s) = .next (withRecord kind .step1 k s) :=
  step_of_tickCase (.pend { kind := kind, step := .step0, operand := k } he rfl rfl hp)

theorem step_withRecord_step1 (he : s.error = false) :
    step (withRecord kind .step1 k s) = .next (setInflight none (finalEffect .original kind k s)) := by
  have hfinal := step_of_tickCase (s := withRecord kind .step1 k s)
    (.final { kind := kind, step := .step1, operand := k } he rfl rfl)
  rwa [withRecord, finalEffect_setInflight] at hfinal

/-- The three ticks of a two-byte instruction with the memory replaced between them: the operand is the byte fetched at
the first (R185), the effect is that of the memory found at the third (R186). -/
theorem three_ticks_with_memories (m1 m2 : Memory) (he : s.error = false) (hi : s.inflight = none)
    (hb : memRead s.pc s = opcodeByte (.twoByte kind)) (hk : memRead (s.pc + 1#8) s = k)
    (hp : ¬ (kind = .jze ∧ s.acc ≠ 0#8)) :
    ∃ t1 t2, step s = .next t1 ∧ step { t1 with mem := m1 } = .next t2 ∧
      step { t2 with mem := m2 } = .next
        (setInflight none (finalEffect .original kind k { s with mem := m2 })) := by
  subst hk
  exact ⟨fetched kind s, withRecord kind .step1 (memRead (s.pc + 1#8) s) { s with mem := m1 },
    step_of_tickCase (.fetch kind he hi hb), step_withRecord_step0 (s := { s with mem := m1 }) he hp,
    step_withRecord_step1 (s := { s with mem := m2 }) he⟩

end ChangingMemory

/-- Settles O34: the three ticks with the two memories, then what the final step of each opcode's kind does. -/
theorem operandIsCapturedAndDataIsReadLate : Obligations.OperandIsCapturedAndDataIsReadLate := by
  intro s m1 m2 op k hm he hi hop hk hmem hjze
  obtain ⟨kind, rfl⟩ := exists_kind_of_mem_twoByteOpcodes hmem
  have hp : ¬ (kind = .jze ∧ s.acc ≠ 0#8) := by
    rintro ⟨rfl, ha⟩
    exact ha (hjze rfl)
  obtain ⟨t1, t2, h1, h2, h3⟩ := three_ticks_with_memories m1 m2 he hi hop hk hp
  refine ⟨t1, t2, _, h1, h2, h3, (finalEffect_error ..).trans he, rfl, ?_, fun hnjmp hnjze => ?_, fun hld => ?_,
    fun hadd => ?_, fun hsub => ?_, fun hst => ?_⟩
  · rintro (h | h)
    · obtain rfl : kind = .jmp := kind_eq_of_opcodeByte h
      exact ⟨rfl, rfl, rfl⟩
    · obtain rfl : kind = .jze := kind_eq_of_opcodeByte h
      exact ⟨rfl, rfl, rfl⟩
  · rw [mod256_add_two]
    obtain hpc | ⟨-, rfl | rfl⟩ := finalEffect_pc .original kind k { s with mem := m2 }
    · exact hpc
    · exact absurd rfl hnjmp
    · exact absurd rfl hnjze
  · obtain rfl : kind = .ld := kind_eq_of_opcodeByte hld
    exact ⟨rfl, rfl⟩
  · obtain rfl : kind = .add := kind_eq_of_opcodeByte hadd
    rw [mod256_add]
    exact ⟨rfl, rfl⟩
  · obtain rfl : kind = .sub := kind_eq_of_opcodeByte hsub
    rw [mod256_sub]
    exact ⟨rfl, rfl⟩
  · obtain rfl : kind = .st := kind_eq_of_opcodeByte hst
    exact ⟨rfl, fun a => read_write hm k.toNat a s.acc⟩

end Sys2Proof.Proofs
